-- ==== Sys2Proof/Word.lean ====
section
/-! DEFINITION. The word types of the block (spec/00_scope.md R7, R10): bytes, 16-bit words, 12-bit addresses, and the
4-bit numbers that name a register, a key or a row count. -/

namespace Sys2Proof

/-- A byte: a general register, a timer, a memory cell (R7: `REG_W`, `TIMER_W`). -/
abbrev Byte := BitVec 8

/-- A 16-bit word: PC, I, a stack entry, an instruction, a fault's `info` and `fpc` (R7). -/
abbrev Word := BitVec 16

/-- The 12-bit address field `nnn` of an instruction (spec/30_encoding.md R72). -/
abbrev Addr := BitVec 12

/-- A general register's number, 0 to 15 (R7: `NREG`; the 4-bit index of R72). -/
abbrev Reg := Fin 16

/-- A key's number, 0 to 15 (R7: `NKEYS`). -/
abbrev Key := Fin 16

/-- The row count `n` of draw, 0 to 15 (R72, R73). -/
abbrev RowCount := Fin 16

/-- VF, general register 15, the flag register (spec/10_state.md R21, R38). -/
abbrev VF : Reg := 15

end Sys2Proof
end

