-- ==== Sys2Proof/Syntax.lean ====
section
/-! DEFINITION. The 34 operations of spec/30_encoding.md R74 (spec/opcode_table.json), one constructor each, with the
operand fields of R72. No field can hold a number the encoding has no room for. -/

namespace Sys2Proof

/-- One instruction of R74. `x` and `y` are register numbers, `kk` an 8-bit immediate, `nnn` a 12-bit address, `n` a row
count (R72, R73). -/
inductive Instr where
  | clearScreen
  | ret
  | jump (nnn : Addr)
  | call (nnn : Addr)
  | skipEqImm (x : Reg) (kk : Byte)
  | skipNeqImm (x : Reg) (kk : Byte)
  | skipEqReg (x y : Reg)
  | loadImm (x : Reg) (kk : Byte)
  | addImm (x : Reg) (kk : Byte)
  | loadReg (x y : Reg)
  | orReg (x y : Reg)
  | andReg (x y : Reg)
  | xorReg (x y : Reg)
  | addReg (x y : Reg)
  | sub (x y : Reg)
  /-- `y` of the word is ignored (R77) -/
  | shr (x : Reg)
  | subn (x y : Reg)
  /-- `y` of the word is ignored (R77) -/
  | shl (x : Reg)
  | skipNeqReg (x y : Reg)
  | loadIndex (nnn : Addr)
  | jumpOffset (nnn : Addr)
  | rand (x : Reg) (kk : Byte)
  | draw (x y : Reg) (n : RowCount)
  | skipKeyPressed (x : Reg)
  | skipKeyNotPressed (x : Reg)
  | loadDelay (x : Reg)
  | waitKey (x : Reg)
  | setDelay (x : Reg)
  | setSound (x : Reg)
  | addIndex (x : Reg)
  | loadFontAddr (x : Reg)
  | storeBcd (x : Reg)
  | storeRegs (x : Reg)
  | loadRegs (x : Reg)
  deriving DecidableEq, Repr

/-- The source's name of the operation (R74, R80), as spec/opcode_table.json spells it. -/
def Instr.mnemonic : Instr → String
  | .clearScreen => "clear-screen"
  | .ret => "return"
  | .jump _ => "jump"
  | .call _ => "call"
  | .skipEqImm _ _ => "skip-eq-imm"
  | .skipNeqImm _ _ => "skip-neq-imm"
  | .skipEqReg _ _ => "skip-eq-reg"
  | .loadImm _ _ => "load-imm"
  | .addImm _ _ => "add-imm"
  | .loadReg _ _ => "load-reg"
  | .orReg _ _ => "or"
  | .andReg _ _ => "and"
  | .xorReg _ _ => "xor"
  | .addReg _ _ => "add-reg"
  | .sub _ _ => "sub"
  | .shr _ => "shr"
  | .subn _ _ => "subn"
  | .shl _ => "shl"
  | .skipNeqReg _ _ => "skip-neq-reg"
  | .loadIndex _ => "load-index"
  | .jumpOffset _ => "jump-offset"
  | .rand _ _ => "rand"
  | .draw _ _ _ => "draw"
  | .skipKeyPressed _ => "skip-key-pressed"
  | .skipKeyNotPressed _ => "skip-key-not-pressed"
  | .loadDelay _ => "load-delay"
  | .waitKey _ => "wait-key"
  | .setDelay _ => "set-delay"
  | .setSound _ => "set-sound"
  | .addIndex _ => "add-index"
  | .loadFontAddr _ => "load-font-addr"
  | .storeBcd _ => "store-bcd"
  | .storeRegs _ => "store-regs"
  | .loadRegs _ => "load-regs"

end Sys2Proof
end

