-- ==== Sys2Proof/WellFormed.lean ====
section
/-! DEFINITION. Well-formedness. A term of `Instr` cannot hold an operand out of range, so the checks stand where a number
can still be too large: on an instruction as R80 writes it, the source's name and its operand numbers
(spec/30_encoding.md R72, R80, R81). -/

namespace Sys2Proof

/-- An instruction as R80 writes it: the source's name of the operation and the operand numbers in order. -/
structure Written where
  name : String
  operands : List Nat
  deriving DecidableEq, Repr

/-- Why a written instruction is no instruction of R74. -/
inductive IllFormed where
  /-- no row of R74 has this name (there are no pseudo-instructions, R81) -/
  | unknownName
  /-- the row takes another number of operands (R74; for the `y` of shr and shl, R81) -/
  | operandCount
  /-- an operand does not fit its field (R72) -/
  | operandRange
  deriving DecidableEq, Repr

/-- An operand `nnn` must fit 12 bits (R72). -/
def checkAddr (nnn : Nat) : Except IllFormed Addr :=
  if nnn < 4096 then .ok (BitVec.ofNat 12 nnn) else .error .operandRange

/-- An operand `kk` must fit 8 bits (R72). -/
def checkByte (kk : Nat) : Except IllFormed Byte :=
  if kk < 256 then .ok (BitVec.ofNat 8 kk) else .error .operandRange

/-- An operand `x`, `y` or `n` must fit 4 bits (R72). -/
def checkNibble (k : Nat) : Except IllFormed (Fin 16) :=
  if h : k < 16 then .ok ⟨k, h⟩ else .error .operandRange

/-- The form "nnn". -/
def formAddr (f : Addr → Instr) : List Nat → Except IllFormed Instr
  | [nnn] => (checkAddr nnn).map f
  | _ => .error .operandCount

/-- The form "x, kk". -/
def formRegImm (f : Reg → Byte → Instr) : List Nat → Except IllFormed Instr
  | [x, kk] => (checkNibble x).bind fun x => (checkByte kk).map (f x)
  | _ => .error .operandCount

/-- The form "x, y". -/
def formRegReg (f : Reg → Reg → Instr) : List Nat → Except IllFormed Instr
  | [x, y] => (checkNibble x).bind fun x => (checkNibble y).map (f x)
  | _ => .error .operandCount

/-- The form "x". -/
def formReg (f : Reg → Instr) : List Nat → Except IllFormed Instr
  | [x] => (checkNibble x).map f
  | _ => .error .operandCount

/-- The form "x" of shr and shl, whose source text may give the ignored `y` as a second operand (R77, R81; log 14). -/
def formShift (f : Reg → Instr) : List Nat → Except IllFormed Instr
  | [x] => (checkNibble x).map f
  | [x, y] => (checkNibble x).bind fun x => (checkNibble y).map fun _ => f x
  | _ => .error .operandCount

/-- The form "x, y, n". -/
def formDraw (f : Reg → Reg → RowCount → Instr) : List Nat → Except IllFormed Instr
  | [x, y, n] => (checkNibble x).bind fun x => (checkNibble y).bind fun y => (checkNibble n).map (f x y)
  | _ => .error .operandCount

/-- The form with no operand. -/
def formNone (i : Instr) : List Nat → Except IllFormed Instr
  | [] => .ok i
  | _ => .error .operandCount

/-- The instruction a written form stands for, or why it stands for none (R74's names and operands, R72's widths). -/
def Written.check (w : Written) : Except IllFormed Instr :=
  match w.name with
  | "clear-screen" => formNone .clearScreen w.operands
  | "return" => formNone .ret w.operands
  | "jump" => formAddr .jump w.operands
  | "call" => formAddr .call w.operands
  | "skip-eq-imm" => formRegImm .skipEqImm w.operands
  | "skip-neq-imm" => formRegImm .skipNeqImm w.operands
  | "skip-eq-reg" => formRegReg .skipEqReg w.operands
  | "load-imm" => formRegImm .loadImm w.operands
  | "add-imm" => formRegImm .addImm w.operands
  | "load-reg" => formRegReg .loadReg w.operands
  | "or" => formRegReg .orReg w.operands
  | "and" => formRegReg .andReg w.operands
  | "xor" => formRegReg .xorReg w.operands
  | "add-reg" => formRegReg .addReg w.operands
  | "sub" => formRegReg .sub w.operands
  | "shr" => formShift .shr w.operands
  | "subn" => formRegReg .subn w.operands
  | "shl" => formShift .shl w.operands
  | "skip-neq-reg" => formRegReg .skipNeqReg w.operands
  | "load-index" => formAddr .loadIndex w.operands
  | "jump-offset" => formAddr .jumpOffset w.operands
  | "rand" => formRegImm .rand w.operands
  | "draw" => formDraw .draw w.operands
  | "skip-key-pressed" => formReg .skipKeyPressed w.operands
  | "skip-key-not-pressed" => formReg .skipKeyNotPressed w.operands
  | "load-delay" => formReg .loadDelay w.operands
  | "wait-key" => formReg .waitKey w.operands
  | "set-delay" => formReg .setDelay w.operands
  | "set-sound" => formReg .setSound w.operands
  | "add-index" => formReg .addIndex w.operands
  | "load-font-addr" => formReg .loadFontAddr w.operands
  | "store-bcd" => formReg .storeBcd w.operands
  | "store-regs" => formReg .storeRegs w.operands
  | "load-regs" => formReg .loadRegs w.operands
  | _ => .error .unknownName

/-- The operand numbers of an instruction, in R80's order. -/
def Instr.operands : Instr → List Nat
  | .clearScreen | .ret => []
  | .jump nnn | .call nnn | .loadIndex nnn | .jumpOffset nnn => [nnn.toNat]
  | .skipEqImm x kk | .skipNeqImm x kk | .loadImm x kk | .addImm x kk | .rand x kk => [x.val, kk.toNat]
  | .skipEqReg x y | .skipNeqReg x y | .loadReg x y | .orReg x y | .andReg x y | .xorReg x y | .addReg x y | .sub x y
  | .subn x y => [x.val, y.val]
  | .shr x | .shl x | .skipKeyPressed x | .skipKeyNotPressed x | .loadDelay x | .waitKey x | .setDelay x | .setSound x
  | .addIndex x | .loadFontAddr x | .storeBcd x | .storeRegs x | .loadRegs x => [x.val]
  | .draw x y n => [x.val, y.val, n.val]

/-- An instruction as R80 writes it. -/
def Instr.written (i : Instr) : Written := ⟨i.mnemonic, i.operands⟩

/-- A written form is well formed when it stands for an instruction of R74. -/
abbrev Written.WellFormed (w : Written) : Prop := ∃ i, w.check = .ok i

/-- An instruction is well formed when its written form stands for it. Every term of `Instr` is
(Sys2Proof/Laws/PerInstr.lean), since its field types leave no room for an operand out of range. -/
abbrev Instr.WellFormed (i : Instr) : Prop := i.written.check = .ok i

end Sys2Proof
end

