-- ==== Sys2Proof/Decode.lean ====
section
/-! DEFINITION. The decoder of spec/30_encoding.md R75, total on all 65536 words; the opcode map of R74 as a list of rows;
the encoder of R81; and `decodeTableWord`, the decoder on a word as the opcode table numbers its bits. -/

namespace Sys2Proof

/-- The one way a word is no instruction (R78): it matches no row of R74. It carries the raw word. -/
inductive DecodeError where
  | decodeFailure (raw : Word)
  deriving DecidableEq, Repr

/-- `w[hi:lo]`, the unsigned value of the bits `hi` down to `lo` (spec/00_scope.md R9). -/
def bits (w : Word) (hi lo : Nat) : Nat := w.toNat / 2 ^ lo % 2 ^ (hi + 1 - lo)

/-- `w[hi:lo]` of four bits, as a register number or a row count (R72). -/
def nibble (w : Word) (lo : Nat) : Fin 16 := ⟨w.toNat / 2 ^ lo % 16, Nat.mod_lt _ (by decide)⟩

/-- The field `nnn`, bits 11:0 (R72). -/
def fieldNnn (w : Word) : Addr := BitVec.ofNat 12 (bits w 11 0)

/-- The field `kk`, bits 7:0 (R72). -/
def fieldKk (w : Word) : Byte := BitVec.ofNat 8 (bits w 7 0)

/-- The field `x`, bits 11:8 (R72). -/
def fieldX (w : Word) : Reg := nibble w 8

/-- The field `y`, bits 7:4 (R72). -/
def fieldY (w : Word) : Reg := nibble w 4

/-- The field `n`, bits 3:0 (R72). -/
def fieldN (w : Word) : RowCount := nibble w 0

/-- The decoder, case by case as R75 writes it. -/
def decode (w : Word) : Except DecodeError Instr :=
  let failure : Except DecodeError Instr := .error (.decodeFailure w)
  let nnn := fieldNnn w
  let x := fieldX w
  let y := fieldY w
  let n := fieldN w
  let kk := fieldKk w
  match bits w 15 12 with
  | 0x0 => if w = 0x00E0#16 then .ok .clearScreen else if w = 0x00EE#16 then .ok .ret else failure
  | 0x1 => .ok (.jump nnn)
  | 0x2 => .ok (.call nnn)
  | 0x3 => .ok (.skipEqImm x kk)
  | 0x4 => .ok (.skipNeqImm x kk)
  | 0x5 => if bits w 3 0 = 0 then .ok (.skipEqReg x y) else failure
  | 0x6 => .ok (.loadImm x kk)
  | 0x7 => .ok (.addImm x kk)
  | 0x8 =>
    match bits w 3 0 with
    | 0x0 => .ok (.loadReg x y)
    | 0x1 => .ok (.orReg x y)
    | 0x2 => .ok (.andReg x y)
    | 0x3 => .ok (.xorReg x y)
    | 0x4 => .ok (.addReg x y)
    | 0x5 => .ok (.sub x y)
    | 0x6 => .ok (.shr x)
    | 0x7 => .ok (.subn x y)
    | 0xE => .ok (.shl x)
    | _ => failure
  | 0x9 => if bits w 3 0 = 0 then .ok (.skipNeqReg x y) else failure
  | 0xA => .ok (.loadIndex nnn)
  | 0xB => .ok (.jumpOffset nnn)
  | 0xC => .ok (.rand x kk)
  | 0xD => .ok (.draw x y n)
  | 0xE =>
    match bits w 7 0 with
    | 0x9E => .ok (.skipKeyPressed x)
    | 0xA1 => .ok (.skipKeyNotPressed x)
    | _ => failure
  | 0xF =>
    match bits w 7 0 with
    | 0x07 => .ok (.loadDelay x)
    | 0x0A => .ok (.waitKey x)
    | 0x15 => .ok (.setDelay x)
    | 0x18 => .ok (.setSound x)
    | 0x1E => .ok (.addIndex x)
    | 0x29 => .ok (.loadFontAddr x)
    | 0x33 => .ok (.storeBcd x)
    | 0x55 => .ok (.storeRegs x)
    | 0x65 => .ok (.loadRegs x)
    | _ => failure
  | _ => failure

/-- The instruction word of two bytes, the byte at the lower address first: it is bits 15:8
(spec/20_memory.md R53, R55). -/
def wordOfBytes (high low : Byte) : Word := BitVec.ofNat 16 (high.toNat * 256 + low.toNat)

/-- Bits 15:8 of a word, the byte stored at the lower address (R55). -/
def highByte (w : Word) : Byte := BitVec.ofNat 8 (bits w 15 8)

/-- Bits 7:0 of a word, the byte stored at the higher address (R55). -/
def lowByte (w : Word) : Byte := BitVec.ofNat 8 (bits w 7 0)

/-- The decoder on bytes in memory order: one instruction and the rest, or none where there are fewer than two bytes or
the word is no instruction. Every instruction has two bytes (R70). -/
def decodeBytes : List Byte → Option (Instr × List Byte)
  | high :: low :: rest =>
    match decode (wordOfBytes high low) with
    | .ok i => some (i, rest)
    | .error _ => none
  | _ => none

/-- The instruction the decoder reads from the bits `w` as spec/opcode_table.json numbers them: one word, bit 0 its least
significant bit, stored high byte first. The bits from `nbits` on are 0. -/
def decodeTableWord (nbits w : Nat) : Option Instr :=
  let word : Word := BitVec.ofNat 16 (w % 2 ^ nbits)
  (decodeBytes [highByte word, lowByte word]).map Prod.fst

/-- One row of R74: the operation's name, and the mask and the match that select it. -/
structure OpcodeRow where
  name : String
  mask : Word
  pattern : Word
  deriving DecidableEq, Repr

/-- "A word selects a row when (instr AND mask) == match" (R74). -/
def OpcodeRow.selects (r : OpcodeRow) (w : Word) : Bool := (w &&& r.mask) == r.pattern

/-- The rows of R74 in their order, the 0 to 7 families. -/
def opcodeRowsLow : List OpcodeRow :=
  [⟨"clear-screen", 0xFFFF, 0x00E0⟩, ⟨"return", 0xFFFF, 0x00EE⟩, ⟨"jump", 0xF000, 0x1000⟩, ⟨"call", 0xF000, 0x2000⟩,
   ⟨"skip-eq-imm", 0xF000, 0x3000⟩, ⟨"skip-neq-imm", 0xF000, 0x4000⟩, ⟨"skip-eq-reg", 0xF00F, 0x5000⟩,
   ⟨"load-imm", 0xF000, 0x6000⟩, ⟨"add-imm", 0xF000, 0x7000⟩]

/-- The rows of R74 in their order, the 8 family. -/
def opcodeRowsAlu : List OpcodeRow :=
  [⟨"load-reg", 0xF00F, 0x8000⟩, ⟨"or", 0xF00F, 0x8001⟩, ⟨"and", 0xF00F, 0x8002⟩, ⟨"xor", 0xF00F, 0x8003⟩,
   ⟨"add-reg", 0xF00F, 0x8004⟩, ⟨"sub", 0xF00F, 0x8005⟩, ⟨"shr", 0xF00F, 0x8006⟩, ⟨"subn", 0xF00F, 0x8007⟩,
   ⟨"shl", 0xF00F, 0x800E⟩]

/-- The rows of R74 in their order, the 9 to F families. -/
def opcodeRowsHigh : List OpcodeRow :=
  [⟨"skip-neq-reg", 0xF00F, 0x9000⟩, ⟨"load-index", 0xF000, 0xA000⟩, ⟨"jump-offset", 0xF000, 0xB000⟩,
   ⟨"rand", 0xF000, 0xC000⟩, ⟨"draw", 0xF000, 0xD000⟩, ⟨"skip-key-pressed", 0xF0FF, 0xE09E⟩,
   ⟨"skip-key-not-pressed", 0xF0FF, 0xE0A1⟩, ⟨"load-delay", 0xF0FF, 0xF007⟩, ⟨"wait-key", 0xF0FF, 0xF00A⟩,
   ⟨"set-delay", 0xF0FF, 0xF015⟩, ⟨"set-sound", 0xF0FF, 0xF018⟩, ⟨"add-index", 0xF0FF, 0xF01E⟩,
   ⟨"load-font-addr", 0xF0FF, 0xF029⟩, ⟨"store-bcd", 0xF0FF, 0xF033⟩, ⟨"store-regs", 0xF0FF, 0xF055⟩,
   ⟨"load-regs", 0xF0FF, 0xF065⟩]

/-- The opcode map of R74, all 34 rows. -/
def opcodeTable : List OpcodeRow := opcodeRowsLow ++ opcodeRowsAlu ++ opcodeRowsHigh

/-- The word with family `f` and the 12 bits `rest` (R72). -/
def wordOfNnn (f rest : Nat) : Word := BitVec.ofNat 16 (f * 4096 + rest)

/-- The word with family `f`, `x` in bits 11:8 and the low byte `kk` (R72). -/
def wordOfXkk (f : Nat) (x : Reg) (kk : Nat) : Word := BitVec.ofNat 16 (f * 4096 + x.val * 256 + kk)

/-- The word with family `f`, `x` in bits 11:8, `y` in bits 7:4 and the low nibble `n` (R72). -/
def wordOfXyn (f : Nat) (x y : Reg) (n : Nat) : Word := BitVec.ofNat 16 (f * 4096 + x.val * 256 + y.val * 16 + n)

/-- The encoder of R81: the selector bits of R74 with the operand fields of R72; shr and shl get the `y` given, in the
field that the decoder ignores (R77). -/
def encodeWith (y : Reg) : Instr → Word
  | .clearScreen => 0x00E0
  | .ret => 0x00EE
  | .jump nnn => wordOfNnn 0x1 nnn.toNat
  | .call nnn => wordOfNnn 0x2 nnn.toNat
  | .skipEqImm x kk => wordOfXkk 0x3 x kk.toNat
  | .skipNeqImm x kk => wordOfXkk 0x4 x kk.toNat
  | .skipEqReg x y => wordOfXyn 0x5 x y 0x0
  | .loadImm x kk => wordOfXkk 0x6 x kk.toNat
  | .addImm x kk => wordOfXkk 0x7 x kk.toNat
  | .loadReg x y => wordOfXyn 0x8 x y 0x0
  | .orReg x y => wordOfXyn 0x8 x y 0x1
  | .andReg x y => wordOfXyn 0x8 x y 0x2
  | .xorReg x y => wordOfXyn 0x8 x y 0x3
  | .addReg x y => wordOfXyn 0x8 x y 0x4
  | .sub x y => wordOfXyn 0x8 x y 0x5
  | .shr x => wordOfXyn 0x8 x y 0x6
  | .subn x y => wordOfXyn 0x8 x y 0x7
  | .shl x => wordOfXyn 0x8 x y 0xE
  | .skipNeqReg x y => wordOfXyn 0x9 x y 0x0
  | .loadIndex nnn => wordOfNnn 0xA nnn.toNat
  | .jumpOffset nnn => wordOfNnn 0xB nnn.toNat
  | .rand x kk => wordOfXkk 0xC x kk.toNat
  | .draw x y n => wordOfXyn 0xD x y n.val
  | .skipKeyPressed x => wordOfXkk 0xE x 0x9E
  | .skipKeyNotPressed x => wordOfXkk 0xE x 0xA1
  | .loadDelay x => wordOfXkk 0xF x 0x07
  | .waitKey x => wordOfXkk 0xF x 0x0A
  | .setDelay x => wordOfXkk 0xF x 0x15
  | .setSound x => wordOfXkk 0xF x 0x18
  | .addIndex x => wordOfXkk 0xF x 0x1E
  | .loadFontAddr x => wordOfXkk 0xF x 0x29
  | .storeBcd x => wordOfXkk 0xF x 0x33
  | .storeRegs x => wordOfXkk 0xF x 0x55
  | .loadRegs x => wordOfXkk 0xF x 0x65

/-- The encoder where no `y` is given to shr and shl: it is 0 (R81). -/
def encode (i : Instr) : Word := encodeWith 0 i

/-- The `y` that source text gives to shr or shl, 0 where it gives none (R81). -/
def Written.givenY (w : Written) : Reg :=
  match w.operands with
  | [_, y] => Fin.ofNat 16 y
  | _ => 0

/-- The word of an instruction as R80 writes it, with the `y` that the text gives to shr and shl (R81), or why it stands
for none. -/
def Written.encode (w : Written) : Except IllFormed Word := w.check.map (encodeWith w.givenY)

end Sys2Proof
end

