-- ==== Sys2Proof/Config.lean ====
section
/-! DEFINITION. The implementation parameters of spec/00_scope.md R7, their legal combinations (R8), and the one free
value of the machine, the random byte of a CYCLE. The default VALUES stand in Sys2Proof/Machine/Params.lean. -/

namespace Sys2Proof

/-- `FETCH_ALIGN_POLICY`: what a fetch at an odd PC does (spec/20_memory.md R54). -/
inductive FetchAlignPolicy where
  /-- it raises MISALIGNED_FETCH (the default) -/
  | fault
  /-- it reads the two bytes as at any other address -/
  | fetch
  deriving DecidableEq, Repr

/-- `VF_MODE`: when the operands are read and which write comes last (spec/43_alu.md R166). -/
inductive VfMode where
  /-- operands read before any write; VF written, then the result (the default) -/
  | latchedResultLast
  /-- operands read before any write; the result written, then VF -/
  | latchedFlagLast
  /-- each statement of the source's table reads the registers as they stand when it runs -/
  | sequential
  deriving DecidableEq, Repr

/-- `KEY_INDEX_POLICY`: what a key test of a register value 16 or more does (spec/45_keys_timers.md R217). -/
inductive KeyIndexPolicy where
  /-- it raises KEY_INDEX_RANGE (the default) -/
  | fault
  /-- it tests the key of the low nibble -/
  | mask
  /-- it answers that no key is pressed -/
  | notPressed
  deriving DecidableEq, Repr

/-- `FONT_REGION_WRITE`: what a store into the font region does (spec/20_memory.md R58). -/
inductive FontWritePolicy where
  /-- it raises FONT_REGION_WRITE (the default) -/
  | fault
  /-- the byte is written like any other -/
  | write
  deriving DecidableEq, Repr

/-- The parameters of R7. `SP_RANGE` is 0 to `stackDepth`, and `FONT_SIZE` is `Config.fontSize` (R8). The rules write the
numbers that `NREG`, `NKEYS` and the widths stand for as numerals (sixteen registers, mod 256, mod 2^16), and the types of
State have those sizes; so only the source's own values of these seven are legal (`Config.sourceSizes`, log 22). -/
structure Config where
  /-- `NREG`: general registers -/
  nreg : Nat
  /-- `REG_W`: bits of a general register -/
  regW : Nat
  /-- `I_W`: bits of I -/
  iW : Nat
  /-- `PC_W`: bits of PC -/
  pcW : Nat
  /-- `STACK_ENTRY_W`: bits of a stack entry -/
  stackEntryW : Nat
  /-- `TIMER_W`: bits of DT and ST -/
  timerW : Nat
  /-- `NKEYS`: keys -/
  nkeys : Nat
  /-- `MEM_SIZE`: bytes of memory -/
  memSize : Nat
  /-- `PROGRAM_START`: the reset PC and the address of the program image -/
  programStart : Nat
  /-- `FONT_BASE`: the address of the font table -/
  fontBase : Nat
  /-- `FONT_GLYPHS`: glyphs of the font table -/
  fontGlyphs : Nat
  /-- `FONT_GLYPH_BYTES`: bytes per glyph -/
  fontGlyphBytes : Nat
  /-- `FONT_DATA`: the bytes of the font table, glyph 0 first -/
  fontData : List Byte
  /-- `FONT_STRIDE`: the multiplier of V[x] in load-font-addr -/
  fontStride : Nat
  /-- `DISPLAY_W`: columns of the display -/
  displayW : Nat
  /-- `DISPLAY_H`: rows of the display -/
  displayH : Nat
  /-- `STACK_DEPTH`: entries of the call stack; SP is 0 to it (`SP_RANGE`) -/
  stackDepth : Nat
  /-- `TIMER_DIV`: completed cycles per timer decrement -/
  timerDiv : Nat
  /-- `FETCH_ALIGN_POLICY` -/
  fetchAlign : FetchAlignPolicy
  /-- `VF_MODE` -/
  vfMode : VfMode
  /-- `KEY_INDEX_POLICY` -/
  keyIndex : KeyIndexPolicy
  /-- `FONT_REGION_WRITE` -/
  fontWrite : FontWritePolicy
  deriving DecidableEq, Repr

/-- `FONT_SIZE` = `FONT_GLYPHS` × `FONT_GLYPH_BYTES` (R8). -/
def Config.fontSize (c : Config) : Nat := c.fontGlyphs * c.fontGlyphBytes

/-- The address `a` lies in the font region `FONT_BASE` .. `FONT_BASE + FONT_SIZE - 1` (R8). -/
def Config.inFont (c : Config) (a : Nat) : Bool := decide (c.fontBase ≤ a) && decide (a < c.fontBase + c.fontSize)

/-- `NREG`, `NKEYS` and the widths have the source's values, the ones the rules are written for (R7; log 22). -/
def Config.sourceSizes (c : Config) : Bool :=
  decide (c.nreg = 16) && decide (c.regW = 8) && decide (c.iW = 16) && decide (c.pcW = 16) &&
  decide (c.stackEntryW = 16) && decide (c.timerW = 8) && decide (c.nkeys = 16)

/-- The constraints R8 puts on a configuration, that `FONT_DATA` has `FONT_SIZE` bytes, and `Config.sourceSizes`. -/
def Config.wf (c : Config) : Bool :=
  decide (c.fontData.length = c.fontSize) && decide (c.fontBase + c.fontSize ≤ c.programStart) &&
  decide (c.programStart < c.memSize) && decide (c.memSize ≤ 65536) && decide (8 ≤ c.displayW) &&
  decide (1 ≤ c.displayH) && decide (1 ≤ c.stackDepth) && decide (1 ≤ c.timerDiv) &&
  c.sourceSizes

/-- FREE VALUE (log 4). The random input of a CYCLE for which the queue of the host names none: the spec allows every
byte in every cycle (spec/40_cycle.md R102, spec/43_alu.md R172), so this constant has no body and nothing can be proved
of it. The step applies it to a counter, so that each cycle has a byte of its own. -/
opaque Config.randomByte : Nat → Byte

end Sys2Proof
end

