-- ==== Sys2Proof/Machine/Params.lean ====
section
/-! DEFINITION. The values of the parameters of spec/00_scope.md R7 in this hardware (log 2 and 3), the font bytes of
spec/10_state.md R33, and what the display and memory hold at reset (R40) as functions of a configuration. -/

namespace Sys2Proof.Machine

/-- The font table of R33: sixteen glyphs of five bytes, top row first. -/
def fontTable : List Byte :=
  [0xF0, 0x90, 0x90, 0x90, 0xF0,  0x20, 0x60, 0x20, 0x20, 0x70,  0xF0, 0x10, 0xF0, 0x80, 0xF0,  0xF0, 0x10, 0xF0, 0x10, 0xF0] ++
  [0x90, 0x90, 0xF0, 0x10, 0x10,  0xF0, 0x80, 0xF0, 0x10, 0xF0,  0xF0, 0x80, 0xF0, 0x90, 0xF0,  0xF0, 0x10, 0x20, 0x40, 0x40] ++
  [0xF0, 0x90, 0xF0, 0x90, 0xF0,  0xF0, 0x90, 0xF0, 0x10, 0xF0,  0xF0, 0x90, 0xF0, 0x90, 0x90,  0xE0, 0x90, 0xE0, 0x90, 0xE0] ++
  [0xF0, 0x80, 0x80, 0x80, 0xF0,  0xE0, 0x90, 0x90, 0x90, 0xE0,  0xF0, 0x80, 0xF0, 0x80, 0xF0,  0xF0, 0x80, 0xF0, 0x80, 0x80]

/-- The parameters' values in this hardware, the third column of R7's table. -/
def defaultConfig : Config where
  nreg := 16
  regW := 8
  iW := 16
  pcW := 16
  stackEntryW := 16
  timerW := 8
  nkeys := 16
  memSize := 4096
  programStart := 0x200
  fontBase := 0x000
  fontGlyphs := 16
  fontGlyphBytes := 5
  fontData := fontTable
  fontStride := 1
  displayW := 64
  displayH := 32
  stackDepth := 16
  timerDiv := 1
  fetchAlign := .fault
  vfMode := .latchedResultLast
  keyIndex := .fault
  fontWrite := .fault

/-- What an address holds after a RESET with an empty image: `FONT_DATA` in the font region, 0 elsewhere (R40,
spec/70_reset_and_hazards.md R260). It is what an address that no cell of a memory lists reads as. -/
def resetByte (c : Config) (a : Nat) : Byte :=
  if c.inFont a then c.fontData.getD (a - c.fontBase) 0 else 0

/-- The display with every pixel 0: `DISPLAY_H` rows of `DISPLAY_W` columns (R34, R40). -/
def blankDisplay (c : Config) : List (List Bool) := List.replicate c.displayH (List.replicate c.displayW false)

end Sys2Proof.Machine
end

