-- ==== Sys2Proof/Machine/State.lean ====
section
/-! DEFINITION. The state of the block: every piece of state of spec/10_state.md (R20 to R41), its reset value (R40), and
the model's own fields (the configuration and the host's inputs, log 1, 4 and 5). -/

namespace Sys2Proof.Machine

/-- The kinds of fault, in the order of their codes 0 to 7 (spec/60_exceptions.md R230). -/
inductive FaultKind where
  /-- code 0: no fault -/
  | none
  /-- code 1: the fetched word matches no row of R74 -/
  | decodeFailure
  /-- code 2: an address at or above `MEM_SIZE` -/
  | memOutOfBounds
  /-- code 3: call with a full stack -/
  | stackOverflow
  /-- code 4: return with an empty stack -/
  | stackUnderflow
  /-- code 5: a fetch at an odd PC under `FETCH_ALIGN_POLICY` = fault -/
  | misalignedFetch
  /-- code 6: a key test of a value 16 or more under `KEY_INDEX_POLICY` = fault -/
  | keyIndexRange
  /-- code 7: a store into the font region under `FONT_REGION_WRITE` = fault -/
  | fontRegionWrite
  deriving DecidableEq, Repr

/-- The fault register `fault = (kind, info, fpc)` (R37). -/
structure FaultReg where
  kind : FaultKind
  info : Word
  fpc : Word
  deriving DecidableEq, Repr

/-- The fault register with no fault: (NONE, 0, 0) (R40). -/
abbrev FaultReg.clear : FaultReg := ⟨.none, 0, 0⟩

/-- A transaction the host issues (spec/40_cycle.md R100). -/
inductive HostEvent where
  /-- RESET(image) (R101) -/
  | reset (image : List Byte)
  /-- CYCLE(rnd) (R102) -/
  | cycle (rnd : Byte)
  /-- KEY_UPDATE(k, p) (R103) -/
  | keyUpdate (k : Key) (p : Bool)
  /-- DELIVER_KEY(k) (R104) -/
  | deliverKey (k : Key)
  /-- ACK_REDRAW (R105) -/
  | ackRedraw
  deriving DecidableEq, Repr

/-- Memory: (address, byte) cells in the one canonical form `Memory.wf` (Machine/Memory.lean). An address no cell lists
reads as `resetByte`. -/
abbrev Memory := List Host.Cell

/-- The pixel grid `pix[row][col]`, row by row, each row column by column (R34). -/
abbrev Display := List (List Bool)

/-- The state of the block. -/
structure State where
  /-- the configuration parameters (spec/00_scope.md R7); the model's own field, no transaction changes it (log 1) -/
  cfg : Config
  /-- V0 to VF (R20) -/
  v : Vector Byte 16
  /-- I (R25) -/
  i : Word
  /-- PC (R23) -/
  pc : Word
  /-- SP, the number of return addresses on the call stack, 0 to `STACK_DEPTH` (R26) -/
  sp : Nat
  /-- stack[1] to stack[`STACK_DEPTH`], in this order (R27) -/
  stack : List Word
  /-- DT, the delay timer (R28) -/
  dt : Byte
  /-- ST, the sound timer (R29) -/
  st : Byte
  /-- mem (R32) -/
  mem : Memory
  /-- pix (R34) -/
  pix : Display
  /-- the "needs redraw" flag (R35) -/
  dirty : Bool
  /-- keys[0..15], true = pressed (R30) -/
  keys : Vector Bool 16
  /-- the "waiting for keypress" flag (R31) -/
  waiting : Bool
  /-- wait_target, the register to receive the next key (R31) -/
  waitTarget : Reg
  /-- completed cycles since the last timer decrement (R36) -/
  tick : Nat
  /-- the fault register (R37) -/
  fault : FaultReg
  /-- the input `rnd` of the CYCLE that is running (R102); the model's own field (log 4) -/
  rnd : Byte
  /-- how many instructions have run to completion, the argument of the free byte that is the `rnd` of a CYCLE the queue
  does not name; the model's own field (log 4) -/
  rndIndex : Nat
  /-- the host's queued transactions, oldest first; the model's own field (log 5) -/
  host : List HostEvent
  deriving DecidableEq, Repr

/-- The reasons a step stops with a fault: there is none. Every fault of the spec is recorded in the fault register and
leaves a next state (spec/60_exceptions.md R231), so nothing raises a constructor of this type (log 6; safe). -/
inductive Fault where
  deriving DecidableEq, Repr

/-- The reasons a step has no next state. -/
inductive Refusal where
  /-- an instruction whose meaning is not written yet; raised by a refused arm of `exec` only (there is none); safe -/
  | notModelled (mnemonic : String)
  /-- RESET with an image longer than `MEM_SIZE - PROGRAM_START`: "the transaction is refused: it has no result state"
  (spec/40_cycle.md R101); raised by the host transaction RESET only, never by an instruction; safe (log 7) -/
  | imageTooLarge
  deriving DecidableEq, Repr

/-- The outcome of a step or of an instruction. -/
abbrev Result := Host.Outcome State Fault Refusal

/-- The state a RESET with an empty image leaves under the configuration `c` (R40, spec/70_reset_and_hazards.md R260). -/
def State.resetOf (c : Config) : State where
  cfg := c
  v := Vector.replicate 16 0
  i := 0
  pc := BitVec.ofNat 16 c.programStart
  sp := 0
  stack := List.replicate c.stackDepth 0
  dt := 0
  st := 0
  mem := []
  pix := blankDisplay c
  dirty := false
  keys := Vector.replicate 16 false
  waiting := false
  waitTarget := 0
  tick := 0
  fault := .clear
  rnd := 0
  rndIndex := 0
  host := []

/-- The machine right after RESET with an empty image, under this hardware's parameters (R40; log 8). -/
def State.reset : State := State.resetOf defaultConfig

end Sys2Proof.Machine
end

