-- ==== Sys2Proof/Machine/Memory.lean ====
section
/-! DEFINITION. The byte memory of spec/20_memory.md: reading and writing one byte of a canonical list of cells (log 11),
and loading the bytes of a program image. -/

namespace Sys2Proof.Machine

/-- `MemRead(a, 1)` (spec/00_scope.md R12): the byte at `a`. -/
def Memory.read (c : Config) : Memory → Nat → Byte
  | [], a => resetByte c a
  | (k, b) :: rest, a => if k = a then b else Memory.read c rest a

/-- The cells that make the address `a` read as `b`: none where an unlisted `a` already does. -/
def Memory.cell (c : Config) (a : Nat) (b : Byte) : Memory := if b = resetByte c a then [] else [(a, b)]

/-- `MemWrite(a, 1, b)` (R12), keeping the canonical form. -/
def Memory.write (c : Config) : Memory → Nat → Byte → Memory
  | [], a, b => Memory.cell c a b
  | (k, v) :: rest, a, b =>
    if a < k then Memory.cell c a b ++ (k, v) :: rest
    else if a = k then Memory.cell c a b ++ rest
    else (k, v) :: Memory.write c rest a b

/-- The bytes `bs` written to the addresses from `a` up, in ascending order (R59). -/
def Memory.writeBytes (c : Config) : Memory → Nat → List Byte → Memory
  | m, _, [] => m
  | m, a, b :: bs => Memory.writeBytes c (Memory.write c m a b) (a + 1) bs

/-- The canonical form: addresses strictly rising, and no cell equal to what an unlisted address reads as. -/
def Memory.wf (c : Config) : Memory → Bool
  | [] => true
  | (a, b) :: rest => (b != resetByte c a) && (rest.all fun d => decide (a < d.1)) && Memory.wf c rest

/-- Every listed address exists: it is below `MEM_SIZE` (R50). -/
def Memory.inBounds (c : Config) (m : Memory) : Bool := m.all fun d => decide (d.1 < c.memSize)

end Sys2Proof.Machine
end

