-- ==== Sys2Proof/Machine/Ops.lean ====
section
/-! DEFINITION. The named operations over registers, memory, the stack, PC and the timers, the address checks, and taking
a fault as one shared operation (spec/10_state.md, 20_memory.md, 44_index_memory.md, 45_keys_timers.md, 60_exceptions.md). -/

namespace Sys2Proof.Machine

/-- `V[r]` (spec/00_scope.md R11). No register is hardwired (spec/10_state.md R20). -/
def State.V (s : State) (r : Reg) : Byte := s.v[r.val]

/-- `V[r] <- b` (R11). -/
def State.setV (s : State) (r : Reg) (b : Byte) : State := { s with v := s.v.set r.val b }

/-- V0 to V[x], in order (spec/44_index_memory.md R196). -/
def State.firstRegs (s : State) (x : Reg) : List Byte := s.v.toList.take (x.val + 1)

/-- `stack[k]`, for k from 1 up (spec/10_state.md R27). -/
def State.stackAt (s : State) (k : Nat) : Word := s.stack.getD (k - 1) 0

/-- The byte at the address `a` of this state's memory (spec/00_scope.md R12). -/
def State.readByte (s : State) (a : Nat) : Byte := Memory.read s.cfg s.mem a

/-- Bytes stored to the addresses from `a` up, in ascending order (spec/20_memory.md R59). -/
def State.storeBytes (s : State) (a : Nat) (bs : List Byte) : State :=
  { s with mem := Memory.writeBytes s.cfg s.mem a bs }

/-- PC advanced over one instruction word, mod 2^16 (spec/40_cycle.md R110, spec/42_control_flow.md R143). -/
def State.advance (s : State) : State := { s with pc := s.pc + 2 }

/-- A skip: PC advanced over one more word when the condition holds (R143). -/
def State.skipIf (s : State) (cond : Bool) : State := if cond then s.advance else s

/-- The effective address `I + k`, an exact number that never wraps (spec/20_memory.md R52). -/
def State.effAddr (s : State) (k : Nat) : Nat := s.i.toNat + k

/-- The fault of `Check` run over the `n` addresses from `a` up, lowest first: MEM_OUT_OF_BOUNDS of the first address at
or above `MEM_SIZE`, mod 2^16 (spec/20_memory.md R51, R57). -/
def boundsFault (c : Config) (a n : Nat) : Option (FaultKind × Word) :=
  ((List.range' a n).find? fun k => decide (c.memSize ≤ k)).map fun k => (.memOutOfBounds, BitVec.ofNat 16 k)

/-- The fault of the font-region check over the `n` addresses from `a` up, lowest first (R58). -/
def fontFault (c : Config) (a n : Nat) : Option (FaultKind × Word) :=
  match c.fontWrite with
  | .write => none
  | .fault => ((List.range' a n).find? fun k => c.inFont k).map fun k => (.fontRegionWrite, BitVec.ofNat 16 k)

/-- The fault of `StoreCheck(a, n)`: bounds on every address, then the font region (spec/44_index_memory.md R193). -/
def storeFault (c : Config) (a n : Nat) : Option (FaultKind × Word) :=
  (boundsFault c a n).or (fontFault c a n)

/-- Taking a fault: the fault register records kind, `info` and the address the instruction was fetched from, PC stands
at that address, and nothing else changes (spec/60_exceptions.md R231, R232). No handler or vector exists (R236), so the
only way back is RESET (`State.resetWith`, Machine/HostPort.lean). -/
def State.takeFault (s : State) (kind : FaultKind) (info fpc : Word) : State :=
  { s with pc := fpc, fault := ⟨kind, info, fpc⟩ }

/-- `raise kind(info)` in a handler (spec/00_scope.md R13). PC has been advanced (R110), so the instruction was fetched
from PC - 2. -/
def raise (kind : FaultKind) (info : Word) (s : State) : Result := .next (s.takeFault kind info (s.pc - 2))

/-- A handler behind its checks: it raises the fault found, or else runs (R57). -/
def unlessFault (found : Option (FaultKind × Word)) (s : State) (run : State) : Result :=
  match found with
  | some (kind, info) => raise kind info s
  | none => .next run

/-- A timer counts down by 1 and stops at 0 (spec/45_keys_timers.md R216). -/
def countDown (t : Byte) : Byte := if t = 0 then 0 else t - 1

/-- The timer step, once at the end of every completed cycle (R216). -/
def State.timerStep (s : State) : State :=
  if s.tick + 1 = s.cfg.timerDiv then { s with tick := 0, dt := countDown s.dt, st := countDown s.st }
  else { s with tick := s.tick + 1 }

end Sys2Proof.Machine
end

