-- ==== Sys2Proof/Machine/Flags.lean ====
section
/-! DEFINITION. The flag VF: each flag computation of spec/43_alu.md (R167 to R171), and the three orders of operand
reads and writes that `VF_MODE` selects (R166). -/

namespace Sys2Proof.Machine

/-- A flag as the register VF holds it: 1 or 0 (spec/00_scope.md R10). -/
def flagByte (b : Bool) : Byte := if b then 1 else 0

/-- The carry of add-reg: 1 iff the exact sum exceeds 255 (R167, R173). -/
def carryFlag (a b : Byte) : Byte := flagByte (decide (255 < a.toNat + b.toNat))

/-- The sum of add-reg, mod 256 (R167). -/
def sumByte (a b : Byte) : Byte := BitVec.ofNat 8 (a.toNat + b.toNat)

/-- 1 iff `a > b`, strictly (R168, R170). -/
def greaterFlag (a b : Byte) : Byte := flagByte (decide (b.toNat < a.toNat))

/-- Bit 0 of the value, the flag of shr (R169). -/
def lowBitFlag (a : Byte) : Byte := a &&& 1

/-- Bit 7 of the value, the flag of shl (R171). -/
def highBitFlag (a : Byte) : Byte := a >>> 7

/-- A flag-writing operation on V[x] and V[y] under `VF_MODE` (R166): `flag` and `result` are functions of the two
operands. -/
def writeFlagged (mode : VfMode) (flag result : Byte → Byte → Byte) (x y : Reg) (s : State) : State :=
  let a := s.V x
  let b := s.V y
  match mode with
  | .latchedResultLast => (s.setV VF (flag a b)).setV x (result a b)
  | .latchedFlagLast => (s.setV x (result a b)).setV VF (flag a b)
  | .sequential =>
    let s1 := s.setV VF (flag a b)
    s1.setV x (result (s1.V x) (s1.V y))

/-- The mode in which add-reg runs: its sum is computed once, so `sequential` writes as `latched_result_last` does (R167,
R174). -/
def addRegMode : VfMode → VfMode
  | .latchedFlagLast => .latchedFlagLast
  | .latchedResultLast => .latchedResultLast
  | .sequential => .latchedResultLast

end Sys2Proof.Machine
end

