-- ==== Sys2Proof/Machine/Alu.lean ====
section
/-! DEFINITION. The meanings of register loads, arithmetic, logic, shifts and rand (spec/43_alu.md). -/

namespace Sys2Proof.Machine

/-- load-imm x, kk (R160). -/
def execLoadImm (x : Reg) (kk : Byte) (s : State) : Result := .next (s.setV x kk)

/-- add-imm x, kk (R161): no flag. -/
def execAddImm (x : Reg) (kk : Byte) (s : State) : Result := .next (s.setV x (sumByte (s.V x) kk))

/-- load-reg x, y (R162). -/
def execLoadReg (x y : Reg) (s : State) : Result := .next (s.setV x (s.V y))

/-- or x, y (R163). -/
def execOr (x y : Reg) (s : State) : Result := .next (s.setV x (s.V x ||| s.V y))

/-- and x, y (R164). -/
def execAnd (x y : Reg) (s : State) : Result := .next (s.setV x (s.V x &&& s.V y))

/-- xor x, y (R165). -/
def execXor (x y : Reg) (s : State) : Result := .next (s.setV x (s.V x ^^^ s.V y))

/-- add-reg x, y (R167). -/
def execAddReg (x y : Reg) (s : State) : Result :=
  .next (writeFlagged (addRegMode s.cfg.vfMode) carryFlag sumByte x y s)

/-- sub x, y (R168). -/
def execSub (x y : Reg) (s : State) : Result :=
  .next (writeFlagged s.cfg.vfMode greaterFlag (fun a b => a - b) x y s)

/-- shr x (R169). -/
def execShr (x : Reg) (s : State) : Result :=
  .next (writeFlagged s.cfg.vfMode (fun a _ => lowBitFlag a) (fun a _ => a >>> 1) x x s)

/-- subn x, y (R170). -/
def execSubn (x y : Reg) (s : State) : Result :=
  .next (writeFlagged s.cfg.vfMode (fun a b => greaterFlag b a) (fun a b => b - a) x y s)

/-- shl x (R171). -/
def execShl (x : Reg) (s : State) : Result :=
  .next (writeFlagged s.cfg.vfMode (fun a _ => highBitFlag a) (fun a _ => a <<< 1) x x s)

/-- rand x, kk (R172): the random input of this CYCLE (spec/40_cycle.md R102; log 4). -/
def execRand (x : Reg) (kk : Byte) (s : State) : Result := .next (s.setV x (s.rnd &&& kk))

end Sys2Proof.Machine
end

