-- ==== Sys2Proof/Machine/Operands.lean ====
section
/-! DEFINITION. The operand forms that need a rule of their own: the address `nnn` and the sum of jump-offset
(spec/30_encoding.md R73, spec/42_control_flow.md R149), the glyph address (spec/44_index_memory.md R192), the decimal
digits of store-bcd (R195), and the key a register value names (spec/45_keys_timers.md R217). -/

namespace Sys2Proof.Machine

/-- `zext_16(nnn)` (R73). -/
def zextAddr (nnn : Addr) : Word := nnn.setWidth 16

/-- `zext_16` of a register value (spec/00_scope.md R10). -/
def zextByte (b : Byte) : Word := b.setWidth 16

/-- `zext_8(k)` of a key number (spec/40_cycle.md R104). -/
def keyByte (k : Key) : Byte := BitVec.ofNat 8 k.val

/-- `(FONT_BASE + FONT_STRIDE * b) mod 2^16` (R192). -/
def glyphAddr (c : Config) (b : Byte) : Word := BitVec.ofNat 16 (c.fontBase + c.fontStride * b.toNat)

/-- The hundreds, tens and ones of a byte, in this order (R195). -/
def bcdDigits (b : Byte) : List Byte :=
  [BitVec.ofNat 8 (b.toNat / 100), BitVec.ofNat 8 (b.toNat / 10 % 10), BitVec.ofNat 8 (b.toNat % 10)]

/-- What `KeyIndex` makes of a register value (R217). -/
inductive KeyLookup where
  /-- the key of this number -/
  | key (k : Key)
  /-- no key: it counts as not pressed -/
  | absent
  /-- KEY_INDEX_RANGE -/
  | outOfRange
  deriving DecidableEq, Repr

/-- `KeyIndex(b)` under `KEY_INDEX_POLICY` (R217). -/
def keyLookup (c : Config) (b : Byte) : KeyLookup :=
  if h : b.toNat < 16 then .key ⟨b.toNat, h⟩
  else
    match c.keyIndex with
    | .fault => .outOfRange
    | .mask => .key ⟨b.toNat % 16, Nat.mod_lt _ (by decide)⟩
    | .notPressed => .absent

/-- `is_pressed(k)` (spec/10_state.md R30). -/
def State.isPressed (s : State) (k : Key) : Bool := s.keys[k.val]

/-- The shared key test of the two key skips: it raises KEY_INDEX_RANGE with the value (R217), or else skips when the
key's state is `wanted` (R210, R211). -/
def keySkip (wanted : Bool) (x : Reg) (s : State) : Result :=
  match keyLookup s.cfg (s.V x) with
  | .key k => .next (s.skipIf (s.isPressed k == wanted))
  | .absent => .next (s.skipIf (false == wanted))
  | .outOfRange => raise .keyIndexRange (zextByte (s.V x)) s

end Sys2Proof.Machine
end

