-- ==== Sys2Proof/Machine/Control.lean ====
section
/-! DEFINITION. The meanings of control transfer and the register and immediate skips (spec/42_control_flow.md). -/

namespace Sys2Proof.Machine

/-- return (R140). -/
def execReturn (s : State) : Result :=
  if s.sp = 0 then raise .stackUnderflow 0 s else .next { s with pc := s.stackAt s.sp, sp := s.sp - 1 }

/-- jump nnn (R141). -/
def execJump (nnn : Addr) (s : State) : Result := .next { s with pc := zextAddr nnn }

/-- call nnn (R142): the address pushed is the already advanced PC, and stack[SP] is list entry SP - 1. DESIGN CHOICE (log
21): R230 gives STACK_OVERFLOW the info SP, info is 16 bits (R13), and R8 bounds `STACK_DEPTH` nowhere; the info of an SP
above 65535, which the spec does not give, is SP mod 2^16. -/
def execCall (nnn : Addr) (s : State) : Result :=
  if s.sp = s.cfg.stackDepth then raise .stackOverflow (BitVec.ofNat 16 s.sp) s
  else .next { s with sp := s.sp + 1, stack := s.stack.set s.sp s.pc, pc := zextAddr nnn }

/-- skip-eq-imm x, kk (R145). -/
def execSkipEqImm (x : Reg) (kk : Byte) (s : State) : Result := .next (s.skipIf (s.V x == kk))

/-- skip-neq-imm x, kk (R146). -/
def execSkipNeqImm (x : Reg) (kk : Byte) (s : State) : Result := .next (s.skipIf (s.V x != kk))

/-- skip-eq-reg x, y (R147). -/
def execSkipEqReg (x y : Reg) (s : State) : Result := .next (s.skipIf (s.V x == s.V y))

/-- skip-neq-reg x, y (R148). -/
def execSkipNeqReg (x y : Reg) (s : State) : Result := .next (s.skipIf (s.V x != s.V y))

/-- jump-offset nnn (R149): the offset register is always V0. -/
def execJumpOffset (nnn : Addr) (s : State) : Result := .next { s with pc := zextAddr nnn + zextByte (s.V 0) }

end Sys2Proof.Machine
end

