-- ==== Sys2Proof/Machine/Pixels.lean ====
section
/-! DEFINITION. The XOR pixel engine of spec/41_display.md: one pixel, the row compositor `draw_sprite` (R122), and the
rows of a draw in the latched and the sequential modes (R121). -/

namespace Sys2Proof.Machine

/-- `pix[row][col]` (spec/10_state.md R34). -/
def Display.pixel (p : Display) (row col : Nat) : Bool := ((p.getD row []).getD col false)

/-- `pix[row][col] <- pix[row][col] XOR 1` (R122). -/
def Display.invert (p : Display) (row col : Nat) : Display := p.modify row fun r => r.modify col not

/-- The bits `b[7-k]` for the listed k, from column `cx` of the display row `row`; the columns wrap (R122, R123). The
second component is `collided`. -/
def drawBits (c : Config) (row cx : Nat) (b : Byte) : List Nat → Display × Bool → Display × Bool
  | [], acc => acc
  | k :: ks, (p, collided) =>
    let col := (cx + k) % c.displayW
    if b.getLsbD (7 - k) then drawBits c row cx b ks (p.invert row col, collided || p.pixel row col)
    else drawBits c row cx b ks (p, collided)

/-- `draw_sprite(cx, cy, b)`: the 8 bits of `b`, most significant first, on row `cy mod DISPLAY_H` (R122). -/
def drawSprite (c : Config) (p : Display) (cx cy : Nat) (b : Byte) : Display × Bool :=
  drawBits c (cy % c.displayH) cx b (List.range 8) (p, false)

/-- The sprite rows for the listed r, at latched coordinates `vx` and `vy + r`, each from the byte at `I + r` (R121). The
second component is `any`. -/
def drawRows (s : State) (vx vy : Nat) : List Nat → Display × Bool → Display × Bool
  | [], acc => acc
  | r :: rs, (p, any) =>
    let d := drawSprite s.cfg p vx (vy + r) (s.readByte (s.effAddr r))
    drawRows s vx vy rs (d.1, any || d.2)

/-- Draw in the latched modes: the coordinates are read before VF is written (R121, R166). -/
def drawLatched (x y : Reg) (n : RowCount) (s : State) : State :=
  let d := drawRows s (s.V x).toNat (s.V y).toNat (List.range n.val) (s.pix, false)
  { s.setV VF (flagByte d.2) with pix := d.1, dirty := true }

/-- The sprite rows for the listed r with the coordinates read from the live registers, VF set by each collision (R121,
`sequential`). -/
def drawRowsLive (x y : Reg) : List Nat → State → State
  | [], s => s
  | r :: rs, s =>
    let d := drawSprite s.cfg s.pix (s.V x).toNat ((s.V y).toNat + r) (s.readByte (s.effAddr r))
    let t := if d.2 then s.setV VF 1 else s
    drawRowsLive x y rs { t with pix := d.1 }

/-- Draw in the mode `sequential`: VF is reset first (R121). -/
def drawSequential (x y : Reg) (n : RowCount) (s : State) : State :=
  { drawRowsLive x y (List.range n.val) (s.setV VF 0) with dirty := true }

end Sys2Proof.Machine
end

