-- ==== Sys2Proof/Machine/Display.lean ====
section
/-! DEFINITION. The meanings of the display instructions (spec/41_display.md). A meaning runs with PC already advanced over
its word, and the timer step follows it (Machine/Cycle.lean). -/

namespace Sys2Proof.Machine

/-- clear-screen (R120). -/
def execClearScreen (s : State) : Result := .next { s with pix := blankDisplay s.cfg, dirty := true }

/-- draw x, y, n (R121): all reads are checked before any write (R57). -/
def execDraw (x y : Reg) (n : RowCount) (s : State) : Result :=
  unlessFault (boundsFault s.cfg (s.effAddr 0) n.val) s
    (match s.cfg.vfMode with
     | .latchedResultLast => drawLatched x y n s
     | .latchedFlagLast => drawLatched x y n s
     | .sequential => drawSequential x y n s)

end Sys2Proof.Machine
end

