-- ==== Sys2Proof/Machine/IndexMem.lean ====
section
/-! DEFINITION. The meanings of the index-register and memory instructions (spec/44_index_memory.md). None changes I but
load-index, add-index and load-font-addr (R194). -/

namespace Sys2Proof.Machine

/-- load-index nnn (R190). -/
def execLoadIndex (nnn : Addr) (s : State) : Result := .next { s with i := zextAddr nnn }

/-- add-index x (R191): mod 2^16, no flag. -/
def execAddIndex (x : Reg) (s : State) : Result := .next { s with i := s.i + zextByte (s.V x) }

/-- load-font-addr x (R192). -/
def execLoadFontAddr (x : Reg) (s : State) : Result := .next { s with i := glyphAddr s.cfg (s.V x) }

/-- store-bcd x (R195). -/
def execStoreBcd (x : Reg) (s : State) : Result :=
  unlessFault (storeFault s.cfg (s.effAddr 0) 3) s (s.storeBytes (s.effAddr 0) (bcdDigits (s.V x)))

/-- store-regs x (R196). -/
def execStoreRegs (x : Reg) (s : State) : Result :=
  unlessFault (storeFault s.cfg (s.effAddr 0) (x.val + 1)) s (s.storeBytes (s.effAddr 0) (s.firstRegs x))

/-- load-regs x (R197): V[r] for r up to x gets the byte at I + r. -/
def execLoadRegs (x : Reg) (s : State) : Result :=
  unlessFault (boundsFault s.cfg (s.effAddr 0) (x.val + 1)) s
    { s with v := Vector.ofFn fun r : Reg => if r ≤ x then s.readByte (s.effAddr r.val) else s.V r }

end Sys2Proof.Machine
end

