-- ==== Sys2Proof/Machine/KeysTimers.lean ====
section
/-! DEFINITION. The meanings of the key tests, the key wait and the timer instructions (spec/45_keys_timers.md). -/

namespace Sys2Proof.Machine

/-- skip-key-pressed x (R210). -/
def execSkipKeyPressed (x : Reg) (s : State) : Result := keySkip true x s

/-- skip-key-not-pressed x (R211). -/
def execSkipKeyNotPressed (x : Reg) (s : State) : Result := keySkip false x s

/-- load-delay x (R212): DT as it stands before this cycle's timer step. -/
def execLoadDelay (x : Reg) (s : State) : Result := .next (s.setV x s.dt)

/-- wait-key x (R213): V[x] is written later, by DELIVER_KEY. -/
def execWaitKey (x : Reg) (s : State) : Result := .next { s with waiting := true, waitTarget := x }

/-- set-delay x (R214). -/
def execSetDelay (x : Reg) (s : State) : Result := .next { s with dt := s.V x }

/-- set-sound x (R215). -/
def execSetSound (x : Reg) (s : State) : Result := .next { s with st := s.V x }

end Sys2Proof.Machine
end

