-- ==== Sys2Proof/Machine/HostPort.lean ====
section
/-! DEFINITION. The host's side of the block (spec/40_cycle.md R101 to R107): RESET, KEY_UPDATE, DELIVER_KEY and
ACK_REDRAW, and the outputs the host may read between transactions. CYCLE is Machine/Cycle.lean. -/

namespace Sys2Proof.Machine

/-- The image fits: L ≤ `MEM_SIZE - PROGRAM_START` (spec/20_memory.md R61). -/
def imageFits (c : Config) (image : List Byte) : Bool := decide (c.programStart + image.length ≤ c.memSize)

/-- The reset sequence with the program image at `PROGRAM_START` (spec/70_reset_and_hazards.md R260). No part of the state
before it survives but the model's own fields: the configuration and the host's inputs. It is the only way out of a
fault (spec/60_exceptions.md R233). -/
def State.resetWith (s : State) (image : List Byte) : State :=
  { State.resetOf s.cfg with
    mem := Memory.writeBytes s.cfg [] s.cfg.programStart image
    rnd := s.rnd, rndIndex := s.rndIndex, host := s.host }

/-- RESET(image) (R101): an image that does not fit is refused, with no result state (log 7). -/
def hostReset (image : List Byte) (s : State) : Result :=
  if imageFits s.cfg image then .next (s.resetWith image) else .refused .imageTooLarge

/-- KEY_UPDATE(k, p) (R103): also while waiting and while faulted. -/
def State.keyUpdate (s : State) (k : Key) (p : Bool) : State := { s with keys := s.keys.set k.val p }

/-- DELIVER_KEY(k) (R104): no effect while not waiting or while faulted. -/
def State.deliverKey (s : State) (k : Key) : State :=
  if s.waiting && decide (s.fault.kind = .none) then { s.setV s.waitTarget (keyByte k) with waiting := false } else s

/-- ACK_REDRAW (R105). -/
def State.ackRedraw (s : State) : State := { s with dirty := false }

/-- The output `sound_active` (R107). -/
def State.soundActive (s : State) : Bool := decide (0 < s.st.toNat)

/-- The number of a fault kind, as the host reads it (spec/60_exceptions.md R230). -/
def FaultKind.code : FaultKind → Nat
  | .none => 0
  | .decodeFailure => 1
  | .memOutOfBounds => 2
  | .stackOverflow => 3
  | .stackUnderflow => 4
  | .misalignedFetch => 5
  | .keyIndexRange => 6
  | .fontRegionWrite => 7

/-- What the host may read between transactions, changing no state (R106, R107). -/
structure Outputs where
  pix : Display
  dirty : Bool
  soundActive : Bool
  waiting : Bool
  fault : FaultReg
  deriving DecidableEq, Repr

/-- The outputs of a state (R106, R107). -/
def State.outputs (s : State) : Outputs := ⟨s.pix, s.dirty, s.soundActive, s.waiting, s.fault⟩

/-- The status a CYCLE returns (R102). -/
inductive Status where
  /-- an instruction ran -/
  | ok
  /-- the cycle did nothing because of a key wait -/
  | waiting
  /-- the core is halted, or this cycle faulted -/
  | faulted (fault : FaultReg)
  deriving DecidableEq, Repr

/-- The status of a CYCLE that led from `s` to `t` (R102, R108, R109, R114; log 17). -/
def cycleStatus (s t : State) : Status :=
  if t.fault.kind ≠ .none then .faulted t.fault else if s.waiting then .waiting else .ok

end Sys2Proof.Machine
end

