-- ==== Sys2Proof/Machine/Cycle.lean ====
section
/-! DEFINITION. One CYCLE transaction (spec/40_cycle.md R108 to R114): the halted and waiting tests, fetch, advance, decode,
execute, timer step, with a fault restoring the state at the start; and one transaction of the host (R100). -/

namespace Sys2Proof.Machine

/-- The word at PC, high byte first (spec/20_memory.md R53). -/
def State.wordAtPc (s : State) : Word := wordOfBytes (s.readByte s.pc.toNat) (s.readByte (s.pc.toNat + 1))

/-- The fault of a fetch: alignment first, then the bounds of PC and PC + 1 (R54, R53, spec/60_exceptions.md R234). -/
def State.fetchFault (s : State) : Option (FaultKind × Word) :=
  if s.cfg.fetchAlign = .fault ∧ s.pc.toNat % 2 = 1 then some (.misalignedFetch, s.pc)
  else boundsFault s.cfg s.pc.toNat 2

/-- The state the handler sees: PC advanced (R110), and `rnd` the random input of this CYCLE (R102). -/
def State.enterHandler (s : State) (rnd : Byte) : State :=
  { s.advance with rnd := rnd, rndIndex := s.rndIndex + 1 }

/-- After the handler: the timer step (R113); or, when it raised a fault, the state before the cycle with the fault
recorded (R114). `s` is the state at the start of the cycle. -/
def finishCycle (s : State) : Result → Result
  | .next t => if t.fault.kind = .none then .next t.timerStep else .next { s with fault := t.fault }
  | .fault r => .fault r
  | .refused r => .refused r

/-- Steps 4 to 6 on a fetched word (R111 to R113). -/
def runWord (rnd : Byte) (s : State) (w : Word) : Result :=
  match decode w with
  | .error (.decodeFailure raw) => .next (s.takeFault .decodeFailure raw s.pc)
  | .ok i => finishCycle s (exec i (s.enterHandler rnd))

/-- CYCLE(rnd) (R114). -/
def cycle (rnd : Byte) (s : State) : Result :=
  if s.fault.kind ≠ .none then .next s
  else if s.waiting then .next s
  else
    match s.fetchFault with
    | some (kind, info) => .next (s.takeFault kind info s.pc)
    | none => runWord rnd s s.wordAtPc

/-- One transaction of the host, on a state whose queue no longer holds it (R100). -/
def transaction (e : HostEvent) (s : State) : Result :=
  match e with
  | .reset image => hostReset image s
  | .cycle rnd => cycle rnd s
  | .keyUpdate k p => .next (s.keyUpdate k p)
  | .deliverKey k => .next (s.deliverKey k)
  | .ackRedraw => .next s.ackRedraw

/-- The next transaction: the oldest the host has queued, or, with nothing queued, a CYCLE with a free random byte (log
4, 5). -/
def nextTransaction (s : State) : Result :=
  match s.host with
  | [] => cycle (Config.randomByte s.rndIndex) s
  | e :: rest => transaction e { s with host := rest }

/-- The state with the word `w` at PC, ready to run it: nothing queued, no key wait, no fault (log 9). -/
def State.withWordAtPc (s : State) (w : Word) : State :=
  { s.storeBytes s.pc.toNat [highByte w, lowByte w] with host := [], waiting := false, fault := .clear }

end Sys2Proof.Machine
end

