-- ==== Sys2Proof/Machine/Step.lean ====
section
/-! DEFINITION. The step of the machine: one transaction (spec/40_cycle.md R100). -/

namespace Sys2Proof.Machine

/-- One step is one transaction of the block (R100): Machine/Cycle.lean. -/
def step (s : State) : Host.Outcome State Fault Refusal := nextTransaction s

/-- The state with the instruction of bits `w` where step fetches its next instruction, so that the next step runs it.
The bits from `nbits` on are 0 (log 9). -/
def State.withFetchWord (s : State) (nbits w : Nat) : State := s.withWordAtPc (BitVec.ofNat 16 (w % 2 ^ nbits))

end Sys2Proof.Machine
end

