-- ==== Sys2Proof/Safety.lean ====
section
/-! DEFINITION. What claims use: the invariant of the state (spec/10_state.md R26, R27, R34, R36, R37, R50), the font table
kept intact (spec/20_memory.md R58), a core that runs, and the quiescent conditions of spec/40_cycle.md R117. -/

namespace Sys2Proof.Machine

/-- The display has `DISPLAY_H` rows of `DISPLAY_W` columns (R34). -/
def Display.sized (c : Config) (p : Display) : Bool :=
  decide (p.length = c.displayH) && p.all fun r => decide (r.length = c.displayW)

/-- What holds in every state a transaction can lead to: the configuration meets R8, memory is canonical and lists only
existing addresses, SP is 0 to `STACK_DEPTH` with `STACK_DEPTH` entries, the display has its size, `tick` is 0 to
`TIMER_DIV - 1`, and a fault register without a fault is (NONE, 0, 0). -/
structure State.Inv (s : State) : Prop where
  cfg_wf : s.cfg.wf = true
  mem_wf : Memory.wf s.cfg s.mem = true
  mem_inBounds : Memory.inBounds s.cfg s.mem = true
  sp_le : s.sp ≤ s.cfg.stackDepth
  stack_length : s.stack.length = s.cfg.stackDepth
  pix_sized : Display.sized s.cfg s.pix = true
  tick_lt : s.tick < s.cfg.timerDiv
  fault_clear : s.fault.kind = .none → s.fault = .clear

/-- The font table reads as `FONT_DATA` (R58: "never overwritten by program execution"). -/
def State.FontIntact (s : State) : Prop :=
  ∀ a, s.cfg.inFont a = true → s.readByte a = s.cfg.fontData.getD (a - s.cfg.fontBase) 0

/-- The next CYCLE fetches: the core is neither halted on a fault nor waiting for a key (R108, R109). -/
def State.Running (s : State) : Prop := s.fault.kind = .none ∧ s.waiting = false

/-- The fetch at PC raises no fault: PC is even where the alignment is checked, and PC and PC + 1 exist (R53, R54). -/
def State.Fetchable (s : State) : Prop :=
  (s.cfg.fetchAlign = .fault → s.pc.toNat % 2 = 0) ∧ s.pc.toNat + 1 < s.cfg.memSize

/-- R117 (c): the word at PC jumps to itself. -/
def State.SelfJump (s : State) : Prop :=
  s.Running ∧ s.pc.toNat + 1 < s.cfg.memSize ∧ s.pc.toNat % 2 = 0 ∧ s.wordAtPc = 0x1000#16 ||| s.pc

/-- The general registers an instruction writes, the last column of spec/10_state.md R22. -/
def regsWritten : Instr → Reg → Bool
  | .loadImm x _, r | .addImm x _, r | .loadReg x _, r | .orReg x _, r | .andReg x _, r | .xorReg x _, r | .rand x _, r
  | .loadDelay x, r => r == x
  | .addReg x _, r | .sub x _, r | .subn x _, r | .shr x, r | .shl x, r => r == x || r == VF
  | .draw _ _ _, r => r == VF
  | .loadRegs x, r => decide (r ≤ x)
  | .clearScreen, _ | .ret, _ | .jump _, _ | .call _, _ | .skipEqImm _ _, _ | .skipNeqImm _ _, _ | .skipEqReg _ _, _
  | .skipNeqReg _ _, _ | .loadIndex _, _ | .jumpOffset _, _ | .skipKeyPressed _, _ | .skipKeyNotPressed _, _
  | .waitKey _, _ | .setDelay _, _ | .setSound _, _ | .addIndex _, _ | .loadFontAddr _, _ | .storeBcd _, _
  | .storeRegs _, _ => false

/-- How many bytes an instruction stores, from I up (spec/20_memory.md R50, R59). -/
def storedLength : Instr → Nat
  | .storeBcd _ => 3
  | .storeRegs x => x.val + 1
  | .clearScreen | .ret | .jump _ | .call _ | .skipEqImm _ _ | .skipNeqImm _ _ | .skipEqReg _ _ | .loadImm _ _
  | .addImm _ _ | .loadReg _ _ | .orReg _ _ | .andReg _ _ | .xorReg _ _ | .addReg _ _ | .sub _ _ | .shr _ | .subn _ _
  | .shl _ | .skipNeqReg _ _ | .loadIndex _ | .jumpOffset _ | .rand _ _ | .draw _ _ _ | .skipKeyPressed _
  | .skipKeyNotPressed _ | .loadDelay _ | .waitKey _ | .setDelay _ | .setSound _ | .addIndex _ | .loadFontAddr _
  | .loadRegs _ => 0

/-- The state under another `VF_MODE`. -/
def State.withMode (s : State) (m : VfMode) : State := { s with cfg := { s.cfg with vfMode := m } }

/-- The sprite of `n` rows at I, drawn at column `vx` and row `vy`, has a 1 bit on the pixel (`row`, `col`): bit 7 - k of
row r lands on column (vx + k) mod `DISPLAY_W` of row (vy + r) mod `DISPLAY_H` (spec/41_display.md R122, R123). -/
def State.SpriteBit (s : State) (vx vy n row col : Nat) : Prop :=
  ∃ r < n, ∃ k < 8, row = (vy + r) % s.cfg.displayH ∧ col = (vx + k) % s.cfg.displayW ∧
    (s.readByte (s.i.toNat + r)).getLsbD (7 - k) = true

/-- The word of R74's pattern with the family `f` and the field `nnn`, its bits side by side. -/
def patternNnn (f : BitVec 4) (nnn : Addr) : Word := f ++ nnn

/-- The word of R74's pattern with the family `f`, the field `x` and the low byte `kk`, its bits side by side. -/
def patternXkk (f : BitVec 4) (x : Reg) (kk : Byte) : Word := f ++ BitVec.ofNat 4 x.val ++ kk

/-- The word of R74's pattern with the family `f`, the fields `x` and `y` and the low nibble `n`, its bits side by side. -/
def patternXyn (f : BitVec 4) (x y : Reg) (n : BitVec 4) : Word := f ++ BitVec.ofNat 4 x.val ++ BitVec.ofNat 4 y.val ++ n

end Sys2Proof.Machine
end

