-- ==== Sys2Proof/Certificates/Slice0/Obligations.lean ====
section
/-! DEFINITION. The statements for the provers, from the numbered rules of spec/. In every statement about `exec`, PC has
already been advanced over the instruction's word (spec/40_cycle.md R110), so "PC - 2" is the address the instruction was
fetched from. -/

open Sys2Proof Sys2Proof.Machine

/-! ## Encoding -/

/-- A few words of the opcode map, written from R74 and the decode vectors of spec/95_test_vectors.md. -/
def Obligations.SampleWordsDecode : Prop :=
  decode 0x00E0 = .ok .clearScreen ∧ decode 0x00EE = .ok .ret ∧ decode 0x1228 = .ok (.jump 0x228) ∧
  decode 0x3310 = .ok (.skipEqImm 3 0x10) ∧ decode 0x8126 = .ok (.shr 1) ∧ decode 0x812E = .ok (.shl 1) ∧
  decode 0xD015 = .ok (.draw 0 1 5) ∧ decode 0xE19E = .ok (.skipKeyPressed 1) ∧ decode 0xF165 = .ok (.loadRegs 1) ∧
  decode 0x0123 = .error (.decodeFailure 0x0123) ∧ decode 0x5121 = .error (.decodeFailure 0x5121) ∧
  decode 0x800F = .error (.decodeFailure 0x800F) ∧ decode 0xFFFF = .error (.decodeFailure 0xFFFF)

/-- Decoding the word the encoder writes gives the instruction back, with every operand (R72, R74, R75, R81). -/
def Obligations.EncodedInstructionDecodesToItself : Prop :=
  ∀ i : Instr, i.WellFormed → decode (encode i) = .ok i ∧ decodeTableWord 16 (encode i).toNat = some i

/-- Encoding a decoded word gives the word back; for shr and shl the ignored `y` field comes back 0 (R77, R81). -/
def Obligations.DecodedWordEncodesBack : Prop :=
  ∀ (w : Word) (i : Instr), decode w = .ok i →
    encode i = w ∨ ∃ x, (i = .shr x ∨ i = .shl x) ∧ encode i = w &&& 0xFF0F#16

/-- Every word selects exactly one row of the opcode map and decodes to that row's operation, or selects none and is a
decode failure that carries it: the rows do not overlap (R74, R75, R76, R78). -/
def Obligations.DecoderAgreesWithOpcodeMap : Prop :=
  ∀ w : Word,
    (∃ i, decode w = .ok i ∧ (opcodeTable.filter fun r => r.selects w).map OpcodeRow.name = [i.mnemonic]) ∨
    (decode w = .error (.decodeFailure w) ∧ opcodeTable.filter (fun r => r.selects w) = [])

/-- The operand fields sit at R72's bit positions in every pattern of R74, whatever their values. -/
def Obligations.FieldsSitAtTheirBits : Prop :=
  ∀ (nnn : Addr) (x y n : Fin 16) (kk : Byte),
    let n4 : BitVec 4 := BitVec.ofNat 4 n.val
    decode (patternNnn 0x1 nnn) = .ok (.jump nnn) ∧ decode (patternNnn 0x2 nnn) = .ok (.call nnn) ∧
    decode (patternNnn 0xA nnn) = .ok (.loadIndex nnn) ∧ decode (patternNnn 0xB nnn) = .ok (.jumpOffset nnn) ∧
    decode (patternXkk 0x3 x kk) = .ok (.skipEqImm x kk) ∧ decode (patternXkk 0x4 x kk) = .ok (.skipNeqImm x kk) ∧
    decode (patternXkk 0x6 x kk) = .ok (.loadImm x kk) ∧ decode (patternXkk 0x7 x kk) = .ok (.addImm x kk) ∧
    decode (patternXkk 0xC x kk) = .ok (.rand x kk) ∧
    decode (patternXyn 0x8 x y 0x0) = .ok (.loadReg x y) ∧ decode (patternXyn 0x8 x y 0x1) = .ok (.orReg x y) ∧
    decode (patternXyn 0x8 x y 0x2) = .ok (.andReg x y) ∧ decode (patternXyn 0x8 x y 0x3) = .ok (.xorReg x y) ∧
    decode (patternXyn 0x8 x y 0x4) = .ok (.addReg x y) ∧ decode (patternXyn 0x8 x y 0x5) = .ok (.sub x y) ∧
    decode (patternXyn 0x8 x y 0x6) = .ok (.shr x) ∧ decode (patternXyn 0x8 x y 0x7) = .ok (.subn x y) ∧
    decode (patternXyn 0x8 x y 0xE) = .ok (.shl x) ∧ decode (patternXyn 0xD x y n4) = .ok (.draw x y n) ∧
    (decode (patternXyn 0x5 x y n4) = if n = 0 then .ok (.skipEqReg x y) else .error (.decodeFailure (patternXyn 0x5 x y n4))) ∧
    (decode (patternXyn 0x9 x y n4) = if n = 0 then .ok (.skipNeqReg x y) else .error (.decodeFailure (patternXyn 0x9 x y n4))) ∧
    decode (patternXkk 0xE x 0x9E) = .ok (.skipKeyPressed x) ∧ decode (patternXkk 0xE x 0xA1) = .ok (.skipKeyNotPressed x) ∧
    decode (patternXkk 0xF x 0x07) = .ok (.loadDelay x) ∧ decode (patternXkk 0xF x 0x0A) = .ok (.waitKey x) ∧
    decode (patternXkk 0xF x 0x15) = .ok (.setDelay x) ∧ decode (patternXkk 0xF x 0x18) = .ok (.setSound x) ∧
    decode (patternXkk 0xF x 0x1E) = .ok (.addIndex x) ∧ decode (patternXkk 0xF x 0x29) = .ok (.loadFontAddr x) ∧
    decode (patternXkk 0xF x 0x33) = .ok (.storeBcd x) ∧ decode (patternXkk 0xF x 0x55) = .ok (.storeRegs x) ∧
    decode (patternXkk 0xF x 0x65) = .ok (.loadRegs x)

/-! ## The cycle -/

/-- At a fetchable PC of a running core whose word decodes to `i`, a step is `exec i` on the state with PC advanced and
this cycle's random input, then the timer step; or, when the handler recorded a fault, the state before the step with
that fault. The random input is the free byte when nothing is queued, and the queued CYCLE's own otherwise (R110 to R114;
the queue and the free byte are the model's, log 4 and 5). -/
def Obligations.StepRunsTheDecodedInstruction : Prop :=
  ∀ (s t : State) (i : Instr), s.Running → s.Fetchable → decode s.wordAtPc = .ok i →
    (s.host = [] →
      exec i { s with pc := s.pc + 2, rnd := Config.randomByte s.rndIndex, rndIndex := s.rndIndex + 1 } = .next t →
      step s = .next (if t.fault.kind = .none then t.timerStep else { s with fault := t.fault })) ∧
    (∀ rnd rest, s.host = .cycle rnd :: rest →
      exec i { s with pc := s.pc + 2, rnd := rnd, rndIndex := s.rndIndex + 1, host := rest } = .next t →
      step s = .next (if t.fault.kind = .none then t.timerStep else { s with fault := t.fault, host := rest }))

/-- The state `withFetchWord` builds from one with a fetchable PC runs exactly the word given: it is fetched at PC by a
running core with nothing queued, and where the word at PC lies elsewhere nothing changed (the model's own loader, log
9). -/
def Obligations.PlacedWordIsFetchedNext : Prop :=
  ∀ (s : State) (w : Nat), s.Inv → s.Fetchable →
    (s.withFetchWord 16 w).Running ∧ (s.withFetchWord 16 w).Fetchable ∧ (s.withFetchWord 16 w).host = [] ∧
    (s.withFetchWord 16 w).wordAtPc = BitVec.ofNat 16 w ∧
    (∀ a, a ≠ s.pc.toNat → a ≠ s.pc.toNat + 1 → (s.withFetchWord 16 w).readByte a = s.readByte a) ∧
    s.withFetchWord 16 w =
      { s with mem := (s.withFetchWord 16 w).mem, host := [], waiting := false, fault := ⟨.none, 0, 0⟩ }

/-- The fetch: the word at PC is the byte at PC times 256 plus the byte at PC + 1; a fetch fault and a decode failure are
recorded with PC, in R234's order: alignment under its policy (D11), the bounds of PC, the bounds of PC + 1, the decoder
(R53, R54, R111, R234). -/
def Obligations.FetchReadsHighByteFirstAndFaultsInOrder : Prop :=
  ∀ s : State, s.Running → s.host = [] →
    s.wordAtPc.toNat = (s.readByte s.pc.toNat).toNat * 256 + (s.readByte (s.pc.toNat + 1)).toNat ∧
    (s.cfg.fetchAlign = .fault ∧ s.pc.toNat % 2 = 1 →
      step s = .next { s with fault := ⟨.misalignedFetch, s.pc, s.pc⟩ }) ∧
    (¬ (s.cfg.fetchAlign = .fault ∧ s.pc.toNat % 2 = 1) →
      (s.cfg.memSize ≤ s.pc.toNat → step s = .next { s with fault := ⟨.memOutOfBounds, s.pc, s.pc⟩ }) ∧
      (s.pc.toNat < s.cfg.memSize ∧ s.cfg.memSize ≤ s.pc.toNat + 1 →
        step s = .next { s with fault := ⟨.memOutOfBounds, s.pc + 1, s.pc⟩ }) ∧
      (s.pc.toNat + 1 < s.cfg.memSize ∧ (∀ i, decode s.wordAtPc ≠ .ok i) →
        step s = .next { s with fault := ⟨.decodeFailure, s.wordAtPc, s.pc⟩ }))

/-- R109. A waiting core: a CYCLE changes nothing, whatever its random input, and its status is WAITING unless the core
is halted. -/
def Obligations.WaitingCycleChangesNothing : Prop :=
  ∀ (s : State) (rnd : Byte), s.waiting = true →
    cycle rnd s = .next s ∧ (s.fault.kind = .none → cycleStatus s s = .waiting) ∧ (s.host = [] → step s = .next s)

/-- R108 (decision D10). A halted core: a CYCLE changes nothing and returns the recorded fault. -/
def Obligations.FaultedCycleChangesNothing : Prop :=
  ∀ (s : State) (rnd : Byte), s.fault.kind ≠ .none →
    cycle rnd s = .next s ∧ cycleStatus s s = .faulted s.fault ∧ (s.host = [] → step s = .next s)

/-- R231, R232 (decision D10). A CYCLE that raises a fault changes nothing but the fault register, which records the
address the instruction was fetched from; its status is that fault. -/
def Obligations.FaultsArePrecise : Prop :=
  ∀ (s t : State) (rnd : Byte), s.Running → cycle rnd s = .next t → t.fault.kind ≠ .none →
    t = { s with fault := ⟨t.fault.kind, t.fault.info, s.pc⟩ } ∧ cycleStatus s t = .faulted t.fault

/-- Every instruction has a next state from every state: none ends in a fault or a refusal of the model (R238: every
instruction may execute at any time). -/
def Obligations.EveryInstructionAnswersANextState : Prop :=
  ∀ (i : Instr) (s : State), ∃ t, exec i s = .next t

/-- A step stops only on a queued RESET whose image does not fit, which is refused (R61, R101, decision D26; log 7). -/
def Obligations.OnlyOversizeResetHasNoNextState : Prop :=
  ∀ s : State,
    (∃ t, step s = .next t) ∨
    ∃ image rest, s.host = .reset image :: rest ∧ s.cfg.memSize < s.cfg.programStart + image.length ∧
      step s = .refused .imageTooLarge

/-! ## Invariants -/

/-- Every transaction keeps the invariant of the state, and none changes the configuration (R7, R42; the configuration is
the model's own field, log 1). -/
def Obligations.StepKeepsInv : Prop := ∀ s t : State, s.Inv → step s = .next t → t.Inv ∧ t.cfg = s.cfg

/-- The reset state meets the invariant, under every configuration that meets R8. -/
def Obligations.ResetMeetsInv : Prop :=
  State.reset.Inv ∧ ∀ c : Config, c.wf = true → (State.resetOf c).Inv

/-- Under `FONT_REGION_WRITE` = fault no transaction changes a byte of the font table (R58, decision D16). -/
def Obligations.FontTableStaysIntact : Prop :=
  ∀ s t : State, s.Inv → s.cfg.fontWrite = .fault → s.FontIntact → step s = .next t → t.FontIntact

/-! ## Frames over all instructions -/

/-- R22, R21: an instruction leaves every general register it does not write unchanged; VF among them. -/
def Obligations.UnwrittenRegistersKeepTheirValues : Prop :=
  ∀ (i : Instr) (s t : State) (r : Reg), exec i s = .next t → regsWritten i r = false → t.V r = s.V r

/-- R50, R59: every byte outside the bytes store-bcd and store-regs store from I up reads as before; an instruction that
stores nothing leaves memory as it was. -/
def Obligations.UnstoredBytesKeepTheirValues : Prop :=
  ∀ (i : Instr) (s t : State), Memory.wf s.cfg s.mem = true → exec i s = .next t →
    (storedLength i = 0 → t.mem = s.mem) ∧
    ∀ a, ¬ (s.effAddr 0 ≤ a ∧ a < s.effAddr 0 + storedLength i) → t.readByte a = s.readByte a

/-- The frame rule R39 for the special registers, by its "written by" column: I, SP, the stack, DT, ST, `waiting`,
`wait_target`, the pixels and `dirty` change only under the instructions named; `keys`, `tick` and the model's own fields
under none. -/
def Obligations.SpecialRegistersChangeOnlyWhereNamed : Prop :=
  ∀ (i : Instr) (s t : State), exec i s = .next t →
    ((∀ a, i ≠ .loadIndex a) → (∀ x, i ≠ .addIndex x) → (∀ x, i ≠ .loadFontAddr x) → t.i = s.i) ∧
    ((∀ a, i ≠ .call a) → t.stack = s.stack) ∧
    ((∀ a, i ≠ .call a) → i ≠ .ret → t.sp = s.sp) ∧
    ((∀ x, i ≠ .setDelay x) → t.dt = s.dt) ∧
    ((∀ x, i ≠ .setSound x) → t.st = s.st) ∧
    ((∀ x, i ≠ .waitKey x) → t.waiting = s.waiting ∧ t.waitTarget = s.waitTarget) ∧
    (i ≠ .clearScreen → (∀ x y n, i ≠ .draw x y n) → t.pix = s.pix ∧ t.dirty = s.dirty) ∧
    t.keys = s.keys ∧ t.tick = s.tick ∧ t.cfg = s.cfg ∧ t.rnd = s.rnd ∧ t.rndIndex = s.rndIndex ∧ t.host = s.host

/-- R24: an instruction that raises no fault and is no jump, call, return or jump-offset leaves PC at the advanced PC, or,
if it is a skip, at that or 2 more. -/
def Obligations.PcMovesOnlyByControlTransfer : Prop :=
  ∀ (i : Instr) (s t : State), s.fault.kind = .none → exec i s = .next t → t.fault.kind = .none →
    (∀ a, i ≠ .jump a) → (∀ a, i ≠ .call a) → i ≠ .ret → (∀ a, i ≠ .jumpOffset a) →
    t.pc = s.pc ∨
    (t.pc = s.pc + 2 ∧
      ((∃ x kk, i = .skipEqImm x kk ∨ i = .skipNeqImm x kk) ∨ (∃ x y, i = .skipEqReg x y ∨ i = .skipNeqReg x y) ∨
        ∃ x, i = .skipKeyPressed x ∨ i = .skipKeyNotPressed x))

/-- R102: no handler but rand reads the random input of the cycle. -/
def Obligations.OnlyRandReadsTheRandomInput : Prop :=
  ∀ (i : Instr) (s t : State) (b : Byte), (∀ x kk, i ≠ .rand x kk) → exec i s = .next t →
    exec i { s with rnd := b } = .next { t with rnd := b }

/-! ## Display -/

/-- R120: clear-screen sets every pixel to 0 and `dirty`, and changes nothing else. -/
def Obligations.ClearScreenClearsEveryPixel : Prop :=
  ∀ s : State, ∃ t, exec .clearScreen s = .next t ∧ t = { s with pix := t.pix, dirty := true } ∧
    Display.sized s.cfg t.pix = true ∧ ∀ row col, t.pix.pixel row col = false

/-- R122 with R123: the row compositor on a display of its size. Each pixel becomes its old value XOR the sprite bit that
lands on it, coordinates wrapping; `collided` exactly when a pixel went from 1 to 0; the display keeps its size. -/
def Obligations.SpriteRowIsXored : Prop :=
  ∀ (c : Config) (p : Display) (cx cy : Nat) (b : Byte), c.wf = true → Display.sized c p = true →
    Display.sized c (drawSprite c p cx cy b).1 = true ∧
    (∀ row col, row < c.displayH → col < c.displayW →
      ((drawSprite c p cx cy b).1.pixel row col = !p.pixel row col ↔
        ∃ k < 8, row = cy % c.displayH ∧ col = (cx + k) % c.displayW ∧ b.getLsbD (7 - k) = true)) ∧
    ((drawSprite c p cx cy b).2 = true ↔
      ∃ row < c.displayH, ∃ col < c.displayW, p.pixel row col = true ∧ (drawSprite c p cx cy b).1.pixel row col = false)

/-- R121, R123 in the latched modes with n ≤ `DISPLAY_H`: draw inverts exactly the pixels under the sprite's 1 bits, sets
VF to 1 exactly when one of them was 1, sets `dirty`, and changes nothing else. -/
def Obligations.DrawXorsTheSprite : Prop :=
  ∀ (x y : Reg) (n : RowCount) (s : State), s.Inv → s.cfg.vfMode ≠ .sequential → n.val ≤ s.cfg.displayH →
    (n = 0 ∨ s.i.toNat + n.val ≤ s.cfg.memSize) →
    ∃ t, exec (.draw x y n) s = .next t ∧ t = { s with v := t.v, pix := t.pix, dirty := true } ∧
      (∀ r, r ≠ VF → t.V r = s.V r) ∧
      (∀ row col, row < s.cfg.displayH → col < s.cfg.displayW →
        (t.pix.pixel row col = !s.pix.pixel row col ↔ s.SpriteBit (s.V x).toNat (s.V y).toNat n.val row col)) ∧
      ((t.V VF = 1 ∧ ∃ row < s.cfg.displayH, ∃ col < s.cfg.displayW,
          s.pix.pixel row col = true ∧ s.SpriteBit (s.V x).toNat (s.V y).toNat n.val row col) ∨
       (t.V VF = 0 ∧ ∀ row col, row < s.cfg.displayH → col < s.cfg.displayW → s.pix.pixel row col = true →
          ¬ s.SpriteBit (s.V x).toNat (s.V y).toNat n.val row col))

/-- R121, R124 in every mode and for every n: draw completes when its sprite lies in memory (or n = 0), leaves 0 or 1 in
VF, sets `dirty`, and changes nothing else but pixels; otherwise it raises MEM_OUT_OF_BOUNDS of the lowest address at or
above `MEM_SIZE`. In `sequential` the first row is drawn at the coordinates as they read after VF was reset, so a
coordinate register VF counts as 0. -/
def Obligations.DrawCompletesOrFaults : Prop :=
  ∀ (x y : Reg) (n : RowCount) (s : State),
    ((n = 0 ∨ s.i.toNat + n.val ≤ s.cfg.memSize) →
      ∃ t, exec (.draw x y n) s = .next t ∧ t = { s with v := t.v, pix := t.pix, dirty := true } ∧
        (t.V VF = 0 ∨ t.V VF = 1) ∧ (∀ r, r ≠ VF → t.V r = s.V r) ∧
        (n = 0 → t.pix = s.pix ∧ t.V VF = 0)) ∧
    (n ≠ 0 → s.cfg.memSize < s.i.toNat + n.val →
      exec (.draw x y n) s = .next { s with
        pc := s.pc - 2
        fault := ⟨.memOutOfBounds, BitVec.ofNat 16 (max s.i.toNat s.cfg.memSize), s.pc - 2⟩ }) ∧
    (n = 1 → s.cfg.vfMode = .sequential → s.i.toNat < s.cfg.memSize →
      ∃ t, exec (.draw x y n) s = .next t ∧
        t.pix = (drawSprite s.cfg s.pix (if x = VF then 0 else (s.V x).toNat) (if y = VF then 0 else (s.V y).toNat)
          (s.readByte s.i.toNat)).1)

/-- R125: drawing the same sprite twice at the same place restores every pixel, in every mode (x, y ≠ F); with
n ≤ `DISPLAY_H` the second draw sets VF to 1 exactly when the first turned a pixel from 0 to 1. -/
def Obligations.DrawTwiceRestoresThePixels : Prop :=
  ∀ (x y : Reg) (n : RowCount) (s t u : State), s.Inv → x ≠ VF → y ≠ VF →
    (n = 0 ∨ s.i.toNat + n.val ≤ s.cfg.memSize) → exec (.draw x y n) s = .next t → exec (.draw x y n) t = .next u →
    u.pix = s.pix ∧
    (n.val ≤ s.cfg.displayH →
      (u.V VF = 1 ↔ ∃ row < s.cfg.displayH, ∃ col < s.cfg.displayW,
        s.pix.pixel row col = false ∧ t.pix.pixel row col = true))

/-! ## Control transfer -/

/-- R141, R149: jump and jump-offset. Encodings 1nnn and Bnnn; PC <- zext_16(nnn), or nnn + V0, which never exceeds 0x10FE;
nothing else changes, no fault of the handler. The next fetch faults on an odd target under the default policy, and on a
target whose second byte does not exist. -/
def Obligations.JumpsSetPc : Prop :=
  ∀ (nnn : Addr) (s : State),
    decode (patternNnn 0x1 nnn) = .ok (.jump nnn) ∧ decode (patternNnn 0xB nnn) = .ok (.jumpOffset nnn) ∧
    (∃ t, exec (.jump nnn) s = .next t ∧ t = { s with pc := t.pc } ∧ t.pc.toNat = nnn.toNat) ∧
    (∃ t, exec (.jumpOffset nnn) s = .next t ∧ t = { s with pc := t.pc } ∧
      t.pc.toNat = nnn.toNat + (s.V 0).toNat ∧ t.pc.toNat ≤ 0x10FE) ∧
    ∀ t i, (i = .jump nnn ∨ i = .jumpOffset nnn) → exec i s = .next t →
      (s.cfg.fetchAlign = .fault → t.pc.toNat % 2 = 1 → t.fetchFault = some (.misalignedFetch, t.pc)) ∧
      (s.cfg.memSize ≤ t.pc.toNat + 1 → t.fetchFault ≠ none)

/-- R142, R140 (decisions D8, D9): call pushes the advanced PC and jumps; with a full stack it raises STACK_OVERFLOW.
return pops; with an empty stack it raises STACK_UNDERFLOW. Every other stack entry keeps its value. The info of an overflow
with SP above 65535, SP mod 2^16, is the model's choice (log 21). -/
def Obligations.CallPushesAndReturnPops : Prop :=
  ∀ (nnn : Addr) (s : State), s.Inv →
    (s.sp < s.cfg.stackDepth →
      ∃ t, exec (.call nnn) s = .next t ∧ t = { s with pc := t.pc, sp := t.sp, stack := t.stack } ∧
        t.pc.toNat = nnn.toNat ∧ t.sp = s.sp + 1 ∧ t.stackAt (s.sp + 1) = s.pc ∧
        ∀ k, 1 ≤ k → k ≠ s.sp + 1 → t.stackAt k = s.stackAt k) ∧
    (s.sp = s.cfg.stackDepth →
      exec (.call nnn) s =
        .next { s with pc := s.pc - 2, fault := ⟨.stackOverflow, BitVec.ofNat 16 s.sp, s.pc - 2⟩ }) ∧
    (0 < s.sp →
      ∃ t, exec .ret s = .next t ∧ t = { s with pc := t.pc, sp := t.sp } ∧ t.pc = s.stackAt s.sp ∧ t.sp + 1 = s.sp) ∧
    (s.sp = 0 → exec .ret s = .next { s with pc := s.pc - 2, fault := ⟨.stackUnderflow, 0, s.pc - 2⟩ })

/-- R150: two steps, a call and the return at its target, resume after the call with SP as before. -/
def Obligations.CallThenReturnResumes : Prop :=
  ∀ (nnn : Addr) (s t : State), s.Inv → s.Running → s.Fetchable → s.host = [] → s.sp < s.cfg.stackDepth →
    decode s.wordAtPc = .ok (.call nnn) → step s = .next t → t.Fetchable → decode t.wordAtPc = .ok .ret →
    ∃ u, Host.Core.run Sys2Proof.core 2 s = .next u ∧ u.pc = s.pc + 2 ∧ u.sp = s.sp ∧ u.v = s.v ∧ u.mem = s.mem

/-- R145, R146: skip-eq-imm and skip-neq-imm. Encodings 3xkk and 4xkk; PC gets 2 more exactly when the condition holds;
nothing else changes, no fault. -/
def Obligations.ImmediateSkips : Prop :=
  ∀ (x : Reg) (kk : Byte) (s : State),
    decode (patternXkk 0x3 x kk) = .ok (.skipEqImm x kk) ∧ decode (patternXkk 0x4 x kk) = .ok (.skipNeqImm x kk) ∧
    exec (.skipEqImm x kk) s = .next { s with pc := if s.V x = kk then s.pc + 2 else s.pc } ∧
    exec (.skipNeqImm x kk) s = .next { s with pc := if s.V x ≠ kk then s.pc + 2 else s.pc }

/-- R147, R148: skip-eq-reg and skip-neq-reg. Encodings 5xy0 and 9xy0, a decode failure for every other low nibble; PC gets
2 more exactly when the condition holds; nothing else changes, no fault. -/
def Obligations.RegisterSkips : Prop :=
  ∀ (x y n : Fin 16) (s : State),
    let n4 : BitVec 4 := BitVec.ofNat 4 n.val
    (decode (patternXyn 0x5 x y n4) = if n = 0 then .ok (.skipEqReg x y) else .error (.decodeFailure (patternXyn 0x5 x y n4))) ∧
    (decode (patternXyn 0x9 x y n4) = if n = 0 then .ok (.skipNeqReg x y) else .error (.decodeFailure (patternXyn 0x9 x y n4))) ∧
    exec (.skipEqReg x y) s = .next { s with pc := if s.V x = s.V y then s.pc + 2 else s.pc } ∧
    exec (.skipNeqReg x y) s = .next { s with pc := if s.V x ≠ s.V y then s.pc + 2 else s.pc }

/-! ## Arithmetic, logic, shifts, rand -/

/-- R160, R161, R162: load-imm, add-imm, load-reg. Encodings 6xkk, 7xkk, 8xy0; the destination gets the value (the sum mod
256), every other register keeps its value, VF too unless it is the destination; nothing else changes, no fault. -/
def Obligations.LoadsAndAddImmWriteTheDestination : Prop :=
  ∀ (x y : Reg) (kk : Byte) (s : State),
    decode (patternXkk 0x6 x kk) = .ok (.loadImm x kk) ∧ decode (patternXkk 0x7 x kk) = .ok (.addImm x kk) ∧
    decode (patternXyn 0x8 x y 0x0) = .ok (.loadReg x y) ∧
    (∃ t, exec (.loadImm x kk) s = .next t ∧ t = { s with v := t.v } ∧ t.V x = kk ∧ ∀ r, r ≠ x → t.V r = s.V r) ∧
    (∃ t, exec (.addImm x kk) s = .next t ∧ t = { s with v := t.v } ∧
      (t.V x).toNat = ((s.V x).toNat + kk.toNat) % 256 ∧ ∀ r, r ≠ x → t.V r = s.V r) ∧
    (∃ t, exec (.loadReg x y) s = .next t ∧ t = { s with v := t.v } ∧ t.V x = s.V y ∧ ∀ r, r ≠ x → t.V r = s.V r)

/-- R163, R164, R165: or, and, xor. Encodings 8xy1, 8xy2, 8xy3; bitwise results, every other register keeps its value, VF
too unless it is the destination; nothing else changes, no fault. -/
def Obligations.LogicWritesTheDestinationBitwise : Prop :=
  ∀ (x y : Reg) (s : State),
    decode (patternXyn 0x8 x y 0x1) = .ok (.orReg x y) ∧ decode (patternXyn 0x8 x y 0x2) = .ok (.andReg x y) ∧
    decode (patternXyn 0x8 x y 0x3) = .ok (.xorReg x y) ∧
    (∃ t, exec (.orReg x y) s = .next t ∧ t = { s with v := t.v } ∧
      (∀ b, (t.V x).getLsbD b = ((s.V x).getLsbD b || (s.V y).getLsbD b)) ∧ ∀ r, r ≠ x → t.V r = s.V r) ∧
    (∃ t, exec (.andReg x y) s = .next t ∧ t = { s with v := t.v } ∧
      (∀ b, (t.V x).getLsbD b = ((s.V x).getLsbD b && (s.V y).getLsbD b)) ∧ ∀ r, r ≠ x → t.V r = s.V r) ∧
    (∃ t, exec (.xorReg x y) s = .next t ∧ t = { s with v := t.v } ∧
      (∀ b, (t.V x).getLsbD b = ((s.V x).getLsbD b ^^ (s.V y).getLsbD b)) ∧ ∀ r, r ≠ x → t.V r = s.V r)

/-- R175: add-reg, sub, shr, subn and shl leave 0 or 1 in VF whatever it held, when VF is not the destination; load-imm,
add-imm, load-reg, or, and, xor and rand leave VF unchanged, when VF is not the destination. -/
def Obligations.FlagWritersWriteVfUnconditionally : Prop :=
  ∀ (i : Instr) (x y : Reg) (kk : Byte) (s : State), x ≠ VF →
    (i ∈ [.addReg x y, .sub x y, .shr x, .subn x y, .shl x] →
      ∃ t, exec i s = .next t ∧ (t.V VF = 0 ∨ t.V VF = 1)) ∧
    (i ∈ [.loadImm x kk, .addImm x kk, .loadReg x y, .orReg x y, .andReg x y, .xorReg x y, .rand x kk] →
      ∃ t, exec i s = .next t ∧ t.V VF = s.V VF)

/-- R167 (decision D14): add-reg in the three modes. With x ≠ F, V[x] is the sum mod 256 and VF the carry of the exact sum
over 255, y = F included. With x = F, VF ends as the sum in `latched_result_last` and `sequential`, as the carry in
`latched_flag_last`. -/
def Obligations.AddRegSumsAndCarries : Prop :=
  ∀ (x y : Reg) (s : State), ∃ t, exec (.addReg x y) s = .next t ∧ t = { s with v := t.v } ∧
    (∀ r, r ≠ x → r ≠ VF → t.V r = s.V r) ∧
    (x ≠ VF → (t.V x).toNat = ((s.V x).toNat + (s.V y).toNat) % 256 ∧
      (t.V VF).toNat = if 255 < (s.V x).toNat + (s.V y).toNat then 1 else 0) ∧
    (x = VF → s.cfg.vfMode ≠ .latchedFlagLast → (t.V VF).toNat = ((s.V x).toNat + (s.V y).toNat) % 256) ∧
    (x = VF → s.cfg.vfMode = .latchedFlagLast →
      (t.V VF).toNat = if 255 < (s.V x).toNat + (s.V y).toNat then 1 else 0)

/-- R168, R170 (decision D14): sub and subn in the latched modes, for every x and y, and in `sequential` with VF named as
an operand. The flag is strict; the difference wraps mod 256. -/
def Obligations.SubtractionsWrapWithStrictFlag : Prop :=
  ∀ (x y : Reg) (s : State) (i : Instr) (p q : Nat),
    (i = .sub x y ∧ p = (s.V x).toNat ∧ q = (s.V y).toNat ∨ i = .subn x y ∧ p = (s.V y).toNat ∧ q = (s.V x).toNat) →
    ∃ t, exec i s = .next t ∧ t = { s with v := t.v } ∧ (∀ r, r ≠ x → r ≠ VF → t.V r = s.V r) ∧
      (s.cfg.vfMode ≠ .sequential ∧ x ≠ VF → (t.V x).toNat = (p + 256 - q) % 256 ∧ (t.V VF).toNat = if q < p then 1 else 0) ∧
      (s.cfg.vfMode = .latchedResultLast ∧ x = VF → (t.V VF).toNat = (p + 256 - q) % 256) ∧
      (s.cfg.vfMode = .latchedFlagLast ∧ x = VF → (t.V VF).toNat = if q < p then 1 else 0) ∧
      (s.cfg.vfMode = .sequential →
        let f := if q < p then 1 else 0
        let p' := if (i = .sub x y ∧ x = VF) ∨ (i ≠ .sub x y ∧ y = VF) then f else p
        let q' := if (i = .sub x y ∧ y = VF) ∨ (i ≠ .sub x y ∧ x = VF) then f else q
        (t.V x).toNat = (p' + 256 - q') % 256 ∧ (x ≠ VF → (t.V VF).toNat = f))

/-- R169, R171 (decision D14): shr and shl in the three modes. The flag is the bit shifted out of the value before the
shift; with x = F the mode decides what VF ends as. -/
def Obligations.ShiftsByOneWithTheBitShiftedOut : Prop :=
  ∀ (x : Reg) (s : State) (i : Instr) (shift : Nat → Nat) (flag : Nat),
    (i = .shr x ∧ shift = (fun a => a / 2) ∧ flag = (s.V x).toNat % 2 ∨
     i = .shl x ∧ shift = (fun a => a * 2 % 256) ∧ flag = (s.V x).toNat / 128) →
    ∃ t, exec i s = .next t ∧ t = { s with v := t.v } ∧ (∀ r, r ≠ x → r ≠ VF → t.V r = s.V r) ∧
      (x ≠ VF → (t.V x).toNat = shift (s.V x).toNat ∧ (t.V VF).toNat = flag) ∧
      (s.cfg.vfMode = .latchedResultLast ∧ x = VF → (t.V VF).toNat = shift (s.V x).toNat) ∧
      (s.cfg.vfMode = .latchedFlagLast ∧ x = VF → (t.V VF).toNat = flag) ∧
      (s.cfg.vfMode = .sequential ∧ x = VF → (t.V VF).toNat = shift flag)

/-- R174: add-reg, sub, subn and draw with x ≠ F and y ≠ F, and shr and shl with x ≠ F, give the same state under every
`VF_MODE` (the configuration apart). -/
def Obligations.VfModeMattersOnlyToVfOperands : Prop :=
  ∀ (x y : Reg) (n : RowCount) (i : Instr) (s t : State) (m m' : VfMode), x ≠ VF → y ≠ VF →
    i ∈ [.addReg x y, .sub x y, .subn x y, .shr x, .shl x, .draw x y n] →
    exec i (s.withMode m) = .next t → exec i (s.withMode m') = .next { t with cfg := (s.withMode m').cfg }

/-- R172 (decision D21): rand leaves the cycle's random byte AND kk in V[x]; with the byte of a queued CYCLE the step reads
exactly that byte. Encoding Cxkk. -/
def Obligations.RandMasksTheRandomInput : Prop :=
  ∀ (x : Reg) (kk rnd : Byte) (s : State),
    decode (patternXkk 0xC x kk) = .ok (.rand x kk) ∧
    (∃ t, exec (.rand x kk) s = .next t ∧ t = { s with v := t.v } ∧
      (∀ b, (t.V x).getLsbD b = (s.rnd.getLsbD b && kk.getLsbD b)) ∧ ∀ r, r ≠ x → t.V r = s.V r) ∧
    ∀ rest, s.Running → s.Fetchable → decode s.wordAtPc = .ok (.rand x kk) → s.host = .cycle rnd :: rest →
      ∃ t, step s = .next t ∧ t.V x = rnd &&& kk

/-! ## Index register and memory -/

/-- R190, R191: load-index and add-index. Encodings Annn and Fx1E; I gets nnn, or I + V[x] mod 2^16; nothing else changes,
VF neither, no fault. -/
def Obligations.IndexLoadsAndAdds : Prop :=
  ∀ (nnn : Addr) (x : Reg) (s : State),
    decode (patternNnn 0xA nnn) = .ok (.loadIndex nnn) ∧ decode (patternXkk 0xF x 0x1E) = .ok (.addIndex x) ∧
    (∃ t, exec (.loadIndex nnn) s = .next t ∧ t = { s with i := t.i } ∧ t.i.toNat = nnn.toNat) ∧
    (∃ t, exec (.addIndex x) s = .next t ∧ t = { s with i := t.i } ∧ t.i.toNat = (s.i.toNat + (s.V x).toNat) % 65536)

/-- R192 (decision D6): load-font-addr. I gets `FONT_BASE` + `FONT_STRIDE` * V[x] mod 2^16; V[x] is not masked; nothing else
changes. -/
def Obligations.LoadFontAddrAddsTheStride : Prop :=
  ∀ (x : Reg) (s : State), ∃ t, exec (.loadFontAddr x) s = .next t ∧ t = { s with i := t.i } ∧
    t.i.toNat = (s.cfg.fontBase + s.cfg.fontStride * (s.V x).toNat) % 65536

/-- R195: store-bcd completes when its three bytes exist and the font check passes: the hundreds, tens and ones of V[x] lie
at I, I + 1, I + 2, every other byte reads as before, and nothing else changes, I neither. -/
def Obligations.StoreBcdStoresTheDigits : Prop :=
  ∀ (x : Reg) (s : State), Memory.wf s.cfg s.mem = true → s.i.toNat + 3 ≤ s.cfg.memSize →
    (s.cfg.fontWrite = .fault → ∀ a, s.effAddr 0 ≤ a → a < s.effAddr 0 + 3 → s.cfg.inFont a = false) →
    ∃ t, exec (.storeBcd x) s = .next t ∧ t = { s with mem := t.mem } ∧
      (t.readByte (s.effAddr 0)).toNat = (s.V x).toNat / 100 ∧
      (t.readByte (s.effAddr 1)).toNat = (s.V x).toNat / 10 % 10 ∧
      (t.readByte (s.effAddr 2)).toNat = (s.V x).toNat % 10 ∧
      ∀ a, ¬ (s.effAddr 0 ≤ a ∧ a < s.effAddr 0 + 3) → t.readByte a = s.readByte a

/-- R196: store-regs completes when its bytes exist and the font check passes: V[r] lies at I + r for r up to x, every
other byte reads as before, and nothing else changes, I neither. -/
def Obligations.StoreRegsStoresEachRegister : Prop :=
  ∀ (x : Reg) (s : State), Memory.wf s.cfg s.mem = true → s.i.toNat + (x.val + 1) ≤ s.cfg.memSize →
    (s.cfg.fontWrite = .fault → ∀ a, s.effAddr 0 ≤ a → a < s.effAddr 0 + (x.val + 1) → s.cfg.inFont a = false) →
    ∃ t, exec (.storeRegs x) s = .next t ∧ t = { s with mem := t.mem } ∧
      (∀ r, r ≤ x → t.readByte (s.effAddr r.val) = s.V r) ∧
      ∀ a, ¬ (s.effAddr 0 ≤ a ∧ a < s.effAddr 0 + (x.val + 1)) → t.readByte a = s.readByte a

/-- R197: load-regs completes when its bytes exist: V[r] gets the byte at I + r for r up to x, the registers above x keep
their values, and nothing else changes, I and memory neither; otherwise it raises MEM_OUT_OF_BOUNDS of the lowest address
at or above `MEM_SIZE`. -/
def Obligations.LoadRegsLoadsEachRegister : Prop :=
  ∀ (x : Reg) (s : State),
    (s.i.toNat + (x.val + 1) ≤ s.cfg.memSize →
      ∃ t, exec (.loadRegs x) s = .next t ∧ t = { s with v := t.v } ∧
        (∀ r, r ≤ x → t.V r = s.readByte (s.effAddr r.val)) ∧ ∀ r, x < r → t.V r = s.V r) ∧
    (s.cfg.memSize < s.i.toNat + (x.val + 1) →
      exec (.loadRegs x) s = .next { s with
        pc := s.pc - 2
        fault := ⟨.memOutOfBounds, BitVec.ofNat 16 (max s.i.toNat s.cfg.memSize), s.pc - 2⟩ })

/-- R193, R58 (decisions D16, D22): what store-bcd and store-regs do when their check fails. An address at or above
`MEM_SIZE` raises MEM_OUT_OF_BOUNDS of the lowest such; else, under the default policy, an address in the font region
raises FONT_REGION_WRITE of the lowest such. -/
def Obligations.StoresOutsideRamFault : Prop :=
  ∀ (x : Reg) (s : State) (i : Instr), (i = .storeBcd x ∨ i = .storeRegs x) →
    (s.cfg.memSize < s.i.toNat + storedLength i →
      exec i s = .next { s with
        pc := s.pc - 2
        fault := ⟨.memOutOfBounds, BitVec.ofNat 16 (max s.i.toNat s.cfg.memSize), s.pc - 2⟩ }) ∧
    (s.i.toNat + storedLength i ≤ s.cfg.memSize → s.cfg.fontWrite = .fault → 0 < s.cfg.fontSize →
      s.cfg.fontBase < s.i.toNat + storedLength i → s.i.toNat < s.cfg.fontBase + s.cfg.fontSize →
      exec i s = .next { s with
        pc := s.pc - 2
        fault := ⟨.fontRegionWrite, BitVec.ofNat 16 (max s.i.toNat s.cfg.fontBase), s.pc - 2⟩ })

/-- R198: store-regs x, then load-regs x with the same I and memory, restores V0 to V[x]. -/
def Obligations.StoreThenLoadRestoresRegisters : Prop :=
  ∀ (x : Reg) (s t u w : State), Memory.wf s.cfg s.mem = true → s.fault.kind = .none → exec (.storeRegs x) s = .next t →
    t.fault.kind = .none → u.cfg = t.cfg → u.mem = t.mem → u.i = s.i → u.fault.kind = .none →
    exec (.loadRegs x) u = .next w → w.fault.kind = .none → ∀ r, r ≤ x → w.V r = s.V r

/-- R63: a store over the word the next cycle fetches is what that cycle fetches: after store-regs x with x ≥ 1 and I at
the advanced PC, the word there is V0, V1, high byte first. -/
def Obligations.StoredWordIsFetchedNext : Prop :=
  ∀ (x : Reg) (s t : State), Memory.wf s.cfg s.mem = true → 1 ≤ x → s.i = s.pc → s.fault.kind = .none →
    exec (.storeRegs x) s = .next t → t.fault.kind = .none →
    t.wordAtPc.toNat = (s.V 0).toNat * 256 + (s.V 1).toNat

/-! ## Keys and timers -/

/-- R210, R211, R217 (decision D15): the key skips. A value under 16 names a key; a value of 16 or more raises
KEY_INDEX_RANGE, names the key of its low nibble, or counts as not pressed, as `KEY_INDEX_POLICY` says. -/
def Obligations.KeySkipsTestTheKey : Prop :=
  ∀ (x : Reg) (s : State),
    (∀ k : Key, (k.val = (s.V x).toNat ∨ (16 ≤ (s.V x).toNat ∧ s.cfg.keyIndex = .mask ∧ k.val = (s.V x).toNat % 16)) →
      exec (.skipKeyPressed x) s = .next { s with pc := if s.isPressed k = true then s.pc + 2 else s.pc } ∧
      exec (.skipKeyNotPressed x) s = .next { s with pc := if s.isPressed k = false then s.pc + 2 else s.pc }) ∧
    (16 ≤ (s.V x).toNat → s.cfg.keyIndex = .notPressed →
      exec (.skipKeyPressed x) s = .next s ∧ exec (.skipKeyNotPressed x) s = .next { s with pc := s.pc + 2 }) ∧
    (16 ≤ (s.V x).toNat → s.cfg.keyIndex = .fault → ∀ i, (i = .skipKeyPressed x ∨ i = .skipKeyNotPressed x) →
      exec i s = .next { s with
        pc := s.pc - 2, fault := ⟨.keyIndexRange, BitVec.ofNat 16 (s.V x).toNat, s.pc - 2⟩ })

/-- R212, R214, R215: load-delay, set-delay, set-sound. Encodings Fx07, Fx15, Fx18; V[x] gets DT as it stands before this
cycle's timer step, DT or ST gets V[x]; nothing else changes, no fault; with `TIMER_DIV` = 1 the timer step of the same
cycle leaves the value written less 1, or 0. -/
def Obligations.TimerRegistersAreReadAndWritten : Prop :=
  ∀ (x : Reg) (s : State),
    decode (patternXkk 0xF x 0x07) = .ok (.loadDelay x) ∧ decode (patternXkk 0xF x 0x15) = .ok (.setDelay x) ∧
    decode (patternXkk 0xF x 0x18) = .ok (.setSound x) ∧
    (∃ t, exec (.loadDelay x) s = .next t ∧ t = { s with v := t.v } ∧ t.V x = s.dt ∧ ∀ r, r ≠ x → t.V r = s.V r) ∧
    (∃ t, exec (.setDelay x) s = .next t ∧ t = { s with dt := s.V x } ∧
      (s.cfg.timerDiv = 1 → s.tick = 0 → t.timerStep.dt.toNat = (s.V x).toNat - 1)) ∧
    (∃ t, exec (.setSound x) s = .next t ∧ t = { s with st := s.V x } ∧
      (s.cfg.timerDiv = 1 → s.tick = 0 → t.timerStep.st.toNat = (s.V x).toNat - 1 ∧
        (t.timerStep.soundActive = true ↔ 1 < (s.V x).toNat)))

/-- R213: wait-key. Encoding Fx0A; `waiting` and `wait_target` are set, nothing else changes, no fault. The timer step of
this cycle leaves the wait standing; from then on a CYCLE changes nothing, KEY_UPDATE does not end the wait, and
DELIVER_KEY puts the key in V[x], ends it, and leaves PC after the wait-key. -/
def Obligations.WaitKeyHoldsUntilAKeyIsDelivered : Prop :=
  ∀ (x : Reg) (s : State), s.fault.kind = .none →
    decode (patternXkk 0xF x 0x0A) = .ok (.waitKey x) ∧
    ∃ t, exec (.waitKey x) s = .next t ∧ t = { s with waiting := true, waitTarget := x } ∧
      (∀ rnd, cycle rnd t.timerStep = .next t.timerStep) ∧
      (∀ k p, (t.timerStep.keyUpdate k p).waiting = true) ∧
      (∀ k, ((t.timerStep.deliverKey k).V x).toNat = k.val ∧ (t.timerStep.deliverKey k).waiting = false ∧
        (t.timerStep.deliverKey k).pc = s.pc)

/-- R218, R109: any number of CYCLEs of a waiting core changes no state at all. -/
def Obligations.WaitingCoreStaysPut : Prop :=
  ∀ (n : Nat) (s : State), s.waiting = true → s.host = [] → Host.Core.run Sys2Proof.core n s = .next s

/-- R216 (decision D18): the timer step. It counts completed cycles in `tick`, and every `TIMER_DIV`-th counts DT and ST
down by 1, each stopping at 0; nothing else changes. -/
def Obligations.TimerStepCountsDown : Prop :=
  ∀ s : State, s.timerStep = { s with tick := s.timerStep.tick, dt := s.timerStep.dt, st := s.timerStep.st } ∧
    (s.tick + 1 = s.cfg.timerDiv →
      s.timerStep.tick = 0 ∧ s.timerStep.dt.toNat = s.dt.toNat - 1 ∧ s.timerStep.st.toNat = s.st.toNat - 1) ∧
    (s.tick + 1 ≠ s.cfg.timerDiv →
      s.timerStep.tick = s.tick + 1 ∧ s.timerStep.dt = s.dt ∧ s.timerStep.st = s.st)

/-- R219: with `TIMER_DIV` = 1, after n completed cycles none of which is a set-delay (a set-sound), DT (ST) is its value
at the start less n, and stays at 0. `run k` is the state after k of the cycles. -/
def Obligations.TimersReachZeroAfterTheirCount : Prop :=
  ∀ (n : Nat) (run : Nat → State) (word : Nat → Instr), (run 0).cfg.timerDiv = 1 → (run 0).tick = 0 →
    (∀ k < n, (run k).Running ∧ (run k).Fetchable ∧ (run k).host = [] ∧ decode (run k).wordAtPc = .ok (word k) ∧
      step (run k) = .next (run (k + 1)) ∧ (run (k + 1)).fault.kind = .none) →
    ((∀ k < n, ∀ x, word k ≠ .setDelay x) → (run n).dt.toNat = (run 0).dt.toNat - n) ∧
    ((∀ k < n, ∀ x, word k ≠ .setSound x) → (run n).st.toNat = (run 0).st.toNat - n)

/-! ## The host -/

/-- R103: KEY_UPDATE. It sets one key's state and changes nothing else, also while waiting and while faulted. -/
def Obligations.KeyUpdateSetsOneKey : Prop :=
  ∀ (s : State) (k : Key) (p : Bool) (rest : List HostEvent), s.host = .keyUpdate k p :: rest →
    ∃ t, step s = .next t ∧ t = { s with keys := t.keys, host := rest } ∧ t.isPressed k = p ∧
      ∀ j, j ≠ k → t.isPressed j = s.isPressed j

/-- R104, R105 (decisions D17, D19): DELIVER_KEY writes the key into V[wait_target] and ends the wait, and has no effect
while not waiting or while faulted; ACK_REDRAW clears `dirty` alone. -/
def Obligations.DeliverKeyAndAckRedraw : Prop :=
  ∀ (s : State) (k : Key) (rest : List HostEvent),
    (s.host = .deliverKey k :: rest → s.waiting = true → s.fault.kind = .none →
      ∃ t, step s = .next t ∧ t = { s with v := t.v, waiting := false, host := rest } ∧
        (t.V s.waitTarget).toNat = k.val ∧ ∀ r, r ≠ s.waitTarget → t.V r = s.V r) ∧
    (s.host = .deliverKey k :: rest → (s.waiting = false ∨ s.fault.kind ≠ .none) →
      step s = .next { s with host := rest }) ∧
    (s.host = .ackRedraw :: rest → step s = .next { s with dirty := false, host := rest })

/-- R260, R40, R101 (decisions D17, D18, D20, D26): RESET with an image that fits sets every piece of state, from any
state, halted and waiting ones too; memory holds the image at `PROGRAM_START`, the font at `FONT_BASE`, and 0 elsewhere. -/
def Obligations.ResetSetsEveryPieceOfState : Prop :=
  ∀ (s : State) (image : List Byte) (rest : List HostEvent), s.cfg.wf = true → s.host = .reset image :: rest →
    s.cfg.programStart + image.length ≤ s.cfg.memSize →
    ∃ t, step s = .next t ∧ (∀ r, t.V r = 0) ∧ t.i = 0 ∧ t.pc.toNat = s.cfg.programStart ∧ t.sp = 0 ∧
      t.stack.length = s.cfg.stackDepth ∧ (∀ k, t.stackAt k = 0) ∧ t.dt = 0 ∧ t.st = 0 ∧
      Display.sized s.cfg t.pix = true ∧ (∀ row col, t.pix.pixel row col = false) ∧ t.dirty = false ∧
      (∀ k, t.isPressed k = false) ∧ t.waiting = false ∧ t.waitTarget = 0 ∧ t.tick = 0 ∧ t.fault = ⟨.none, 0, 0⟩ ∧
      t.cfg = s.cfg ∧ t.host = rest ∧
      ∀ a, t.readByte a =
        if s.cfg.programStart ≤ a ∧ a < s.cfg.programStart + image.length then image.getD (a - s.cfg.programStart) 0
        else if s.cfg.inFont a then s.cfg.fontData.getD (a - s.cfg.fontBase) 0 else 0

/-- R40, R33 at this hardware's parameters (their values are the spec's own decisions and general knowledge, log 2 and 3):
the state a RESET with an empty image leaves. -/
def Obligations.ResetStateOfThisHardware : Prop :=
  State.reset.pc = 0x200 ∧ (∀ r, State.reset.V r = 0) ∧ State.reset.i = 0 ∧ State.reset.sp = 0 ∧
  State.reset.stack = List.replicate 16 0 ∧ State.reset.dt = 0 ∧ State.reset.st = 0 ∧
  (∀ row col, State.reset.pix.pixel row col = false) ∧ State.reset.dirty = false ∧
  State.reset.waiting = false ∧ State.reset.fault = ⟨.none, 0, 0⟩ ∧
  (∀ a, a < 80 → State.reset.readByte a = fontTable.getD a 0) ∧ (∀ a, 80 ≤ a → State.reset.readByte a = 0) ∧
  (List.range 5).map State.reset.readByte = [0xF0, 0x90, 0x90, 0x90, 0xF0] ∧
  (List.range' 75 5).map State.reset.readByte = [0xF0, 0x80, 0xF0, 0x80, 0x80]

/-- R233 (decision D10), R238, R243: a recorded fault stays until a RESET, and the key wait ends only by DELIVER_KEY or by
a RESET. -/
def Obligations.OnlyTheHostEndsAHaltOrAWait : Prop :=
  ∀ s t : State, step s = .next t →
    (s.fault.kind ≠ .none → t.fault ≠ s.fault → ∃ image rest, s.host = .reset image :: rest) ∧
    (s.waiting = true → t.waiting = false →
      (∃ k rest, s.host = .deliverKey k :: rest) ∨ ∃ image rest, s.host = .reset image :: rest)

/-- R117 (c): a core whose word at PC jumps to itself stays so, and every further CYCLE leaves all state but DT, ST and
`tick` unchanged (and the model's own random input). R117's "0x1000 OR PC" is a jump to itself where PC fits `nnn`, so
`MEM_SIZE` is at most 4096 here. -/
def Obligations.SelfJumpSpins : Prop :=
  ∀ s : State, s.SelfJump → s.host = [] → s.cfg.memSize ≤ 4096 →
    ∃ t, step s = .next t ∧ t.SelfJump ∧
      t = { s with dt := t.dt, st := t.st, tick := t.tick, rnd := t.rnd, rndIndex := t.rndIndex }

/-! ## Encoding of written instructions -/

/-- R81, R80: a written instruction that passes the checks encodes to a word that decodes to the instruction it stands for;
the word carries the `y` that the text gives to shr or shl (as a second operand, log 14), and is `encode` of the instruction
everywhere else. One that fails a check encodes to nothing. -/
def Obligations.WrittenInstructionsEncode : Prop :=
  ∀ w : Written,
    (∀ i, w.check = .ok i →
      ∃ word, w.encode = .ok word ∧ decode word = .ok i ∧
        (∀ x y, w = ⟨"shr", [x, y]⟩ ∨ w = ⟨"shl", [x, y]⟩ → (fieldY word).val = y) ∧
        ((∀ x y, w ≠ ⟨"shr", [x, y]⟩ ∧ w ≠ ⟨"shl", [x, y]⟩) → word = encode i)) ∧
    ∀ e, w.check = .error e → w.encode = .error e
end

