-- ==== Sys2Proof/Laws/Decode.lean ====
section
/-! SUPPORT. The fields of the words the encoder and R74's patterns build, so that a proof about decoding needs only
rewriting. -/

namespace Sys2Proof

theorem toNat_wordOfNnn {f rest : Nat} (hf : f < 16) (hr : rest < 4096) :
    (wordOfNnn f rest).toNat = f * 4096 + rest := by
  unfold wordOfNnn; rw [BitVec.toNat_ofNat]; omega

theorem toNat_wordOfXkk {f kk : Nat} (hf : f < 16) (x : Reg) (hk : kk < 256) :
    (wordOfXkk f x kk).toNat = f * 4096 + x.val * 256 + kk := by
  have := x.isLt
  unfold wordOfXkk; rw [BitVec.toNat_ofNat]; omega

theorem toNat_wordOfXyn {f n : Nat} (hf : f < 16) (x y : Reg) (hn : n < 16) :
    (wordOfXyn f x y n).toNat = f * 4096 + x.val * 256 + y.val * 16 + n := by
  have := x.isLt
  have := y.isLt
  unfold wordOfXyn; rw [BitVec.toNat_ofNat]; omega

/-- The bits of a word are those of its number. -/
theorem bits_eq (w : Word) (hi lo : Nat) : bits w hi lo = w.toNat / 2 ^ lo % 2 ^ (hi + 1 - lo) := rfl

/-- The family and `nnn` of a word built from them. -/
theorem fields_wordOfNnn {f a : Nat} (hf : f < 16) (ha : a < 4096) :
    bits (wordOfNnn f a) 15 12 = f ∧ fieldNnn (wordOfNnn f a) = BitVec.ofNat 12 a := by
  simp only [bits, fieldNnn, toNat_wordOfNnn hf ha]
  refine ⟨by omega, ?_⟩
  congr 1; omega

/-- The family, `x` and low byte of a word built from them. -/
theorem fields_wordOfXkk {f k : Nat} (hf : f < 16) (x : Reg) (hk : k < 256) :
    bits (wordOfXkk f x k) 15 12 = f ∧ fieldX (wordOfXkk f x k) = x ∧ bits (wordOfXkk f x k) 7 0 = k ∧
      fieldKk (wordOfXkk f x k) = BitVec.ofNat 8 k := by
  have := x.isLt
  have hb : bits (wordOfXkk f x k) 7 0 = k := by simp only [bits, toNat_wordOfXkk hf x hk]; omega
  refine ⟨by simp only [bits, toNat_wordOfXkk hf x hk]; omega, ?_, hb, by rw [fieldKk, hb]⟩
  apply Fin.ext; simp only [fieldX, nibble, toNat_wordOfXkk hf x hk]; omega

/-- The family, `x`, `y` and low nibble of a word built from them. -/
theorem fields_wordOfXyn {f k : Nat} (hf : f < 16) (x y : Reg) (hk : k < 16) :
    bits (wordOfXyn f x y k) 15 12 = f ∧ fieldX (wordOfXyn f x y k) = x ∧ fieldY (wordOfXyn f x y k) = y ∧
      bits (wordOfXyn f x y k) 3 0 = k ∧ fieldN (wordOfXyn f x y k) = ⟨k, hk⟩ := by
  have := x.isLt
  have := y.isLt
  refine ⟨?_, Fin.ext ?_, Fin.ext ?_, ?_, Fin.ext ?_⟩ <;>
    simp only [bits, fieldX, fieldY, fieldN, nibble, toNat_wordOfXyn hf x y hk] <;> omega

/-- Bits side by side are the number with the left bits scaled up. -/
theorem toNat_append_eq {m n : Nat} (a : BitVec m) (b : BitVec n) :
    (a ++ b).toNat = a.toNat * 2 ^ n + b.toNat := by
  rw [BitVec.toNat_append, ← Nat.shiftLeft_add_eq_or_of_lt b.isLt, Nat.shiftLeft_eq]

/-- R74's patterns are the words the encoder builds. -/
theorem patternNnn_eq (f : BitVec 4) (a : Addr) : Machine.patternNnn f a = wordOfNnn f.toNat a.toNat := by
  have h : (f ++ a).toNat = f.toNat * 4096 + a.toNat := toNat_append_eq f a
  have := f.isLt
  have := a.isLt
  apply BitVec.eq_of_toNat_eq
  rw [toNat_wordOfNnn (by omega) (by omega)]
  exact h

theorem patternXkk_eq (f : BitVec 4) (x : Reg) (kk : Byte) :
    Machine.patternXkk f x kk = wordOfXkk f.toNat x kk.toNat := by
  have h : (f ++ BitVec.ofNat 4 x.val ++ kk).toNat = (f.toNat * 16 + x.val) * 256 + kk.toNat := by
    have := x.isLt
    rw [toNat_append_eq, toNat_append_eq, BitVec.toNat_ofNat, Nat.mod_eq_of_lt (by omega)]
    omega
  have := f.isLt
  have := kk.isLt
  apply BitVec.eq_of_toNat_eq
  rw [toNat_wordOfXkk (by omega) x (by omega)]
  exact h.trans (by omega)

theorem patternXyn_eq (f : BitVec 4) (x y : Reg) (n : BitVec 4) :
    Machine.patternXyn f x y n = wordOfXyn f.toNat x y n.toNat := by
  have h : (f ++ BitVec.ofNat 4 x.val ++ BitVec.ofNat 4 y.val ++ n).toNat =
      ((f.toNat * 16 + x.val) * 16 + y.val) * 16 + n.toNat := by
    have := x.isLt
    have := y.isLt
    rw [toNat_append_eq, toNat_append_eq, toNat_append_eq, BitVec.toNat_ofNat, BitVec.toNat_ofNat,
      Nat.mod_eq_of_lt (a := x.val) (by omega), Nat.mod_eq_of_lt (a := y.val) (by omega)]
    omega
  have := f.isLt
  have := n.isLt
  apply BitVec.eq_of_toNat_eq
  rw [toNat_wordOfXyn (by omega) x y (by omega)]
  exact h.trans (by omega)

/-- A word is its family, `x`, `y` and `n` side by side. -/
theorem toNat_eq_fields (w : Word) :
    w.toNat = bits w 15 12 * 4096 + (fieldX w).val * 256 + (fieldY w).val * 16 + (fieldN w).val := by
  have := w.isLt
  simp only [bits, fieldX, fieldY, fieldN, nibble]
  omega

/-- The low byte of a word is `y` and `n` side by side. -/
theorem toNat_fieldKk (w : Word) : (fieldKk w).toNat = w.toNat % 256 := by
  simp only [fieldKk, bits, BitVec.toNat_ofNat]; omega

/-- `nnn` is the low twelve bits of a word. -/
theorem toNat_fieldNnn (w : Word) : (fieldNnn w).toNat = w.toNat % 4096 := by
  simp only [fieldNnn, bits, BitVec.toNat_ofNat]; omega

/-- The word of two bytes, high byte first. -/
theorem toNat_wordOfBytes (high low : Byte) : (wordOfBytes high low).toNat = high.toNat * 256 + low.toNat := by
  have := high.isLt
  have := low.isLt
  unfold wordOfBytes; rw [BitVec.toNat_ofNat]; omega

/-- A word is the word of its two bytes. -/
theorem wordOfBytes_of_word (w : Word) : wordOfBytes (highByte w) (lowByte w) = w := by
  apply BitVec.eq_of_toNat_eq
  have := w.isLt
  rw [toNat_wordOfBytes]
  simp only [highByte, lowByte, bits, BitVec.toNat_ofNat]
  omega

/-- The `y` given to the encoder matters to shr and shl alone. -/
theorem encodeWith_eq {i : Instr} (h : ∀ x, i ≠ .shr x ∧ i ≠ .shl x) (y : Reg) : encodeWith y i = encode i := by
  cases i with
  | shr x => exact absurd rfl (h x).1
  | shl x => exact absurd rfl (h x).2
  | _ => rfl

end Sys2Proof
end

