-- ==== Sys2Proof/Laws/State.lean ====
section
/-! SUPPORT. What each named update of the state leaves unchanged, field by field, and what it sets, so that no later proof
unfolds a record update. -/

namespace Sys2Proof.Machine

/-! `setV` -/

@[simp] theorem setV_cfg (s : State) (r : Reg) (b : Byte) : (s.setV r b).cfg = s.cfg := rfl
@[simp] theorem setV_i (s : State) (r : Reg) (b : Byte) : (s.setV r b).i = s.i := rfl
@[simp] theorem setV_pc (s : State) (r : Reg) (b : Byte) : (s.setV r b).pc = s.pc := rfl
@[simp] theorem setV_sp (s : State) (r : Reg) (b : Byte) : (s.setV r b).sp = s.sp := rfl
@[simp] theorem setV_stack (s : State) (r : Reg) (b : Byte) : (s.setV r b).stack = s.stack := rfl
@[simp] theorem setV_dt (s : State) (r : Reg) (b : Byte) : (s.setV r b).dt = s.dt := rfl
@[simp] theorem setV_st (s : State) (r : Reg) (b : Byte) : (s.setV r b).st = s.st := rfl
@[simp] theorem setV_mem (s : State) (r : Reg) (b : Byte) : (s.setV r b).mem = s.mem := rfl
@[simp] theorem setV_pix (s : State) (r : Reg) (b : Byte) : (s.setV r b).pix = s.pix := rfl
@[simp] theorem setV_dirty (s : State) (r : Reg) (b : Byte) : (s.setV r b).dirty = s.dirty := rfl
@[simp] theorem setV_keys (s : State) (r : Reg) (b : Byte) : (s.setV r b).keys = s.keys := rfl
@[simp] theorem setV_waiting (s : State) (r : Reg) (b : Byte) : (s.setV r b).waiting = s.waiting := rfl
@[simp] theorem setV_waitTarget (s : State) (r : Reg) (b : Byte) : (s.setV r b).waitTarget = s.waitTarget := rfl
@[simp] theorem setV_tick (s : State) (r : Reg) (b : Byte) : (s.setV r b).tick = s.tick := rfl
@[simp] theorem setV_fault (s : State) (r : Reg) (b : Byte) : (s.setV r b).fault = s.fault := rfl
@[simp] theorem setV_rnd (s : State) (r : Reg) (b : Byte) : (s.setV r b).rnd = s.rnd := rfl
@[simp] theorem setV_rndIndex (s : State) (r : Reg) (b : Byte) : (s.setV r b).rndIndex = s.rndIndex := rfl
@[simp] theorem setV_host (s : State) (r : Reg) (b : Byte) : (s.setV r b).host = s.host := rfl

/-! `storeBytes` -/

@[simp] theorem storeBytes_cfg (s : State) (a : Nat) (bs : List Byte) : (s.storeBytes a bs).cfg = s.cfg := rfl
@[simp] theorem storeBytes_v (s : State) (a : Nat) (bs : List Byte) : (s.storeBytes a bs).v = s.v := rfl
@[simp] theorem storeBytes_i (s : State) (a : Nat) (bs : List Byte) : (s.storeBytes a bs).i = s.i := rfl
@[simp] theorem storeBytes_pc (s : State) (a : Nat) (bs : List Byte) : (s.storeBytes a bs).pc = s.pc := rfl
@[simp] theorem storeBytes_sp (s : State) (a : Nat) (bs : List Byte) : (s.storeBytes a bs).sp = s.sp := rfl
@[simp] theorem storeBytes_stack (s : State) (a : Nat) (bs : List Byte) : (s.storeBytes a bs).stack = s.stack := rfl
@[simp] theorem storeBytes_dt (s : State) (a : Nat) (bs : List Byte) : (s.storeBytes a bs).dt = s.dt := rfl
@[simp] theorem storeBytes_st (s : State) (a : Nat) (bs : List Byte) : (s.storeBytes a bs).st = s.st := rfl
@[simp] theorem storeBytes_pix (s : State) (a : Nat) (bs : List Byte) : (s.storeBytes a bs).pix = s.pix := rfl
@[simp] theorem storeBytes_dirty (s : State) (a : Nat) (bs : List Byte) : (s.storeBytes a bs).dirty = s.dirty := rfl
@[simp] theorem storeBytes_keys (s : State) (a : Nat) (bs : List Byte) : (s.storeBytes a bs).keys = s.keys := rfl
@[simp] theorem storeBytes_waiting (s : State) (a : Nat) (bs : List Byte) : (s.storeBytes a bs).waiting = s.waiting := rfl
@[simp] theorem storeBytes_waitTarget (s : State) (a : Nat) (bs : List Byte) : (s.storeBytes a bs).waitTarget = s.waitTarget := rfl
@[simp] theorem storeBytes_tick (s : State) (a : Nat) (bs : List Byte) : (s.storeBytes a bs).tick = s.tick := rfl
@[simp] theorem storeBytes_fault (s : State) (a : Nat) (bs : List Byte) : (s.storeBytes a bs).fault = s.fault := rfl
@[simp] theorem storeBytes_rnd (s : State) (a : Nat) (bs : List Byte) : (s.storeBytes a bs).rnd = s.rnd := rfl
@[simp] theorem storeBytes_rndIndex (s : State) (a : Nat) (bs : List Byte) : (s.storeBytes a bs).rndIndex = s.rndIndex := rfl
@[simp] theorem storeBytes_host (s : State) (a : Nat) (bs : List Byte) : (s.storeBytes a bs).host = s.host := rfl

/-! `advance` -/

@[simp] theorem advance_cfg (s : State) : (s.advance).cfg = s.cfg := rfl
@[simp] theorem advance_v (s : State) : (s.advance).v = s.v := rfl
@[simp] theorem advance_i (s : State) : (s.advance).i = s.i := rfl
@[simp] theorem advance_sp (s : State) : (s.advance).sp = s.sp := rfl
@[simp] theorem advance_stack (s : State) : (s.advance).stack = s.stack := rfl
@[simp] theorem advance_dt (s : State) : (s.advance).dt = s.dt := rfl
@[simp] theorem advance_st (s : State) : (s.advance).st = s.st := rfl
@[simp] theorem advance_mem (s : State) : (s.advance).mem = s.mem := rfl
@[simp] theorem advance_pix (s : State) : (s.advance).pix = s.pix := rfl
@[simp] theorem advance_dirty (s : State) : (s.advance).dirty = s.dirty := rfl
@[simp] theorem advance_keys (s : State) : (s.advance).keys = s.keys := rfl
@[simp] theorem advance_waiting (s : State) : (s.advance).waiting = s.waiting := rfl
@[simp] theorem advance_waitTarget (s : State) : (s.advance).waitTarget = s.waitTarget := rfl
@[simp] theorem advance_tick (s : State) : (s.advance).tick = s.tick := rfl
@[simp] theorem advance_fault (s : State) : (s.advance).fault = s.fault := rfl
@[simp] theorem advance_rnd (s : State) : (s.advance).rnd = s.rnd := rfl
@[simp] theorem advance_rndIndex (s : State) : (s.advance).rndIndex = s.rndIndex := rfl
@[simp] theorem advance_host (s : State) : (s.advance).host = s.host := rfl

/-! `skipIf` -/

@[simp] theorem skipIf_cfg (s : State) (c : Bool) : (s.skipIf c).cfg = s.cfg := by cases c <;> rfl
@[simp] theorem skipIf_v (s : State) (c : Bool) : (s.skipIf c).v = s.v := by cases c <;> rfl
@[simp] theorem skipIf_i (s : State) (c : Bool) : (s.skipIf c).i = s.i := by cases c <;> rfl
@[simp] theorem skipIf_sp (s : State) (c : Bool) : (s.skipIf c).sp = s.sp := by cases c <;> rfl
@[simp] theorem skipIf_stack (s : State) (c : Bool) : (s.skipIf c).stack = s.stack := by cases c <;> rfl
@[simp] theorem skipIf_dt (s : State) (c : Bool) : (s.skipIf c).dt = s.dt := by cases c <;> rfl
@[simp] theorem skipIf_st (s : State) (c : Bool) : (s.skipIf c).st = s.st := by cases c <;> rfl
@[simp] theorem skipIf_mem (s : State) (c : Bool) : (s.skipIf c).mem = s.mem := by cases c <;> rfl
@[simp] theorem skipIf_pix (s : State) (c : Bool) : (s.skipIf c).pix = s.pix := by cases c <;> rfl
@[simp] theorem skipIf_dirty (s : State) (c : Bool) : (s.skipIf c).dirty = s.dirty := by cases c <;> rfl
@[simp] theorem skipIf_keys (s : State) (c : Bool) : (s.skipIf c).keys = s.keys := by cases c <;> rfl
@[simp] theorem skipIf_waiting (s : State) (c : Bool) : (s.skipIf c).waiting = s.waiting := by cases c <;> rfl
@[simp] theorem skipIf_waitTarget (s : State) (c : Bool) : (s.skipIf c).waitTarget = s.waitTarget := by cases c <;> rfl
@[simp] theorem skipIf_tick (s : State) (c : Bool) : (s.skipIf c).tick = s.tick := by cases c <;> rfl
@[simp] theorem skipIf_fault (s : State) (c : Bool) : (s.skipIf c).fault = s.fault := by cases c <;> rfl
@[simp] theorem skipIf_rnd (s : State) (c : Bool) : (s.skipIf c).rnd = s.rnd := by cases c <;> rfl
@[simp] theorem skipIf_rndIndex (s : State) (c : Bool) : (s.skipIf c).rndIndex = s.rndIndex := by cases c <;> rfl
@[simp] theorem skipIf_host (s : State) (c : Bool) : (s.skipIf c).host = s.host := by cases c <;> rfl

/-! `takeFault` -/

@[simp] theorem takeFault_cfg (s : State) (k : FaultKind) (info fpc : Word) : (s.takeFault k info fpc).cfg = s.cfg := rfl
@[simp] theorem takeFault_v (s : State) (k : FaultKind) (info fpc : Word) : (s.takeFault k info fpc).v = s.v := rfl
@[simp] theorem takeFault_i (s : State) (k : FaultKind) (info fpc : Word) : (s.takeFault k info fpc).i = s.i := rfl
@[simp] theorem takeFault_sp (s : State) (k : FaultKind) (info fpc : Word) : (s.takeFault k info fpc).sp = s.sp := rfl
@[simp] theorem takeFault_stack (s : State) (k : FaultKind) (info fpc : Word) : (s.takeFault k info fpc).stack = s.stack := rfl
@[simp] theorem takeFault_dt (s : State) (k : FaultKind) (info fpc : Word) : (s.takeFault k info fpc).dt = s.dt := rfl
@[simp] theorem takeFault_st (s : State) (k : FaultKind) (info fpc : Word) : (s.takeFault k info fpc).st = s.st := rfl
@[simp] theorem takeFault_mem (s : State) (k : FaultKind) (info fpc : Word) : (s.takeFault k info fpc).mem = s.mem := rfl
@[simp] theorem takeFault_pix (s : State) (k : FaultKind) (info fpc : Word) : (s.takeFault k info fpc).pix = s.pix := rfl
@[simp] theorem takeFault_dirty (s : State) (k : FaultKind) (info fpc : Word) : (s.takeFault k info fpc).dirty = s.dirty := rfl
@[simp] theorem takeFault_keys (s : State) (k : FaultKind) (info fpc : Word) : (s.takeFault k info fpc).keys = s.keys := rfl
@[simp] theorem takeFault_waiting (s : State) (k : FaultKind) (info fpc : Word) : (s.takeFault k info fpc).waiting = s.waiting := rfl
@[simp] theorem takeFault_waitTarget (s : State) (k : FaultKind) (info fpc : Word) : (s.takeFault k info fpc).waitTarget = s.waitTarget := rfl
@[simp] theorem takeFault_tick (s : State) (k : FaultKind) (info fpc : Word) : (s.takeFault k info fpc).tick = s.tick := rfl
@[simp] theorem takeFault_rnd (s : State) (k : FaultKind) (info fpc : Word) : (s.takeFault k info fpc).rnd = s.rnd := rfl
@[simp] theorem takeFault_rndIndex (s : State) (k : FaultKind) (info fpc : Word) : (s.takeFault k info fpc).rndIndex = s.rndIndex := rfl
@[simp] theorem takeFault_host (s : State) (k : FaultKind) (info fpc : Word) : (s.takeFault k info fpc).host = s.host := rfl

/-! `timerStep` -/

@[simp] theorem timerStep_cfg (s : State) : (s.timerStep).cfg = s.cfg := by unfold State.timerStep; split <;> rfl
@[simp] theorem timerStep_v (s : State) : (s.timerStep).v = s.v := by unfold State.timerStep; split <;> rfl
@[simp] theorem timerStep_i (s : State) : (s.timerStep).i = s.i := by unfold State.timerStep; split <;> rfl
@[simp] theorem timerStep_pc (s : State) : (s.timerStep).pc = s.pc := by unfold State.timerStep; split <;> rfl
@[simp] theorem timerStep_sp (s : State) : (s.timerStep).sp = s.sp := by unfold State.timerStep; split <;> rfl
@[simp] theorem timerStep_stack (s : State) : (s.timerStep).stack = s.stack := by unfold State.timerStep; split <;> rfl
@[simp] theorem timerStep_mem (s : State) : (s.timerStep).mem = s.mem := by unfold State.timerStep; split <;> rfl
@[simp] theorem timerStep_pix (s : State) : (s.timerStep).pix = s.pix := by unfold State.timerStep; split <;> rfl
@[simp] theorem timerStep_dirty (s : State) : (s.timerStep).dirty = s.dirty := by unfold State.timerStep; split <;> rfl
@[simp] theorem timerStep_keys (s : State) : (s.timerStep).keys = s.keys := by unfold State.timerStep; split <;> rfl
@[simp] theorem timerStep_waiting (s : State) : (s.timerStep).waiting = s.waiting := by unfold State.timerStep; split <;> rfl
@[simp] theorem timerStep_waitTarget (s : State) : (s.timerStep).waitTarget = s.waitTarget := by unfold State.timerStep; split <;> rfl
@[simp] theorem timerStep_fault (s : State) : (s.timerStep).fault = s.fault := by unfold State.timerStep; split <;> rfl
@[simp] theorem timerStep_rnd (s : State) : (s.timerStep).rnd = s.rnd := by unfold State.timerStep; split <;> rfl
@[simp] theorem timerStep_rndIndex (s : State) : (s.timerStep).rndIndex = s.rndIndex := by unfold State.timerStep; split <;> rfl
@[simp] theorem timerStep_host (s : State) : (s.timerStep).host = s.host := by unfold State.timerStep; split <;> rfl

/-! `keyUpdate` -/

@[simp] theorem keyUpdate_cfg (s : State) (k : Key) (p : Bool) : (s.keyUpdate k p).cfg = s.cfg := rfl
@[simp] theorem keyUpdate_v (s : State) (k : Key) (p : Bool) : (s.keyUpdate k p).v = s.v := rfl
@[simp] theorem keyUpdate_i (s : State) (k : Key) (p : Bool) : (s.keyUpdate k p).i = s.i := rfl
@[simp] theorem keyUpdate_pc (s : State) (k : Key) (p : Bool) : (s.keyUpdate k p).pc = s.pc := rfl
@[simp] theorem keyUpdate_sp (s : State) (k : Key) (p : Bool) : (s.keyUpdate k p).sp = s.sp := rfl
@[simp] theorem keyUpdate_stack (s : State) (k : Key) (p : Bool) : (s.keyUpdate k p).stack = s.stack := rfl
@[simp] theorem keyUpdate_dt (s : State) (k : Key) (p : Bool) : (s.keyUpdate k p).dt = s.dt := rfl
@[simp] theorem keyUpdate_st (s : State) (k : Key) (p : Bool) : (s.keyUpdate k p).st = s.st := rfl
@[simp] theorem keyUpdate_mem (s : State) (k : Key) (p : Bool) : (s.keyUpdate k p).mem = s.mem := rfl
@[simp] theorem keyUpdate_pix (s : State) (k : Key) (p : Bool) : (s.keyUpdate k p).pix = s.pix := rfl
@[simp] theorem keyUpdate_dirty (s : State) (k : Key) (p : Bool) : (s.keyUpdate k p).dirty = s.dirty := rfl
@[simp] theorem keyUpdate_waiting (s : State) (k : Key) (p : Bool) : (s.keyUpdate k p).waiting = s.waiting := rfl
@[simp] theorem keyUpdate_waitTarget (s : State) (k : Key) (p : Bool) : (s.keyUpdate k p).waitTarget = s.waitTarget := rfl
@[simp] theorem keyUpdate_tick (s : State) (k : Key) (p : Bool) : (s.keyUpdate k p).tick = s.tick := rfl
@[simp] theorem keyUpdate_fault (s : State) (k : Key) (p : Bool) : (s.keyUpdate k p).fault = s.fault := rfl
@[simp] theorem keyUpdate_rnd (s : State) (k : Key) (p : Bool) : (s.keyUpdate k p).rnd = s.rnd := rfl
@[simp] theorem keyUpdate_rndIndex (s : State) (k : Key) (p : Bool) : (s.keyUpdate k p).rndIndex = s.rndIndex := rfl
@[simp] theorem keyUpdate_host (s : State) (k : Key) (p : Bool) : (s.keyUpdate k p).host = s.host := rfl

/-! `deliverKey` -/

@[simp] theorem deliverKey_cfg (s : State) (k : Key) : (s.deliverKey k).cfg = s.cfg := by unfold State.deliverKey; split <;> rfl
@[simp] theorem deliverKey_i (s : State) (k : Key) : (s.deliverKey k).i = s.i := by unfold State.deliverKey; split <;> rfl
@[simp] theorem deliverKey_pc (s : State) (k : Key) : (s.deliverKey k).pc = s.pc := by unfold State.deliverKey; split <;> rfl
@[simp] theorem deliverKey_sp (s : State) (k : Key) : (s.deliverKey k).sp = s.sp := by unfold State.deliverKey; split <;> rfl
@[simp] theorem deliverKey_stack (s : State) (k : Key) : (s.deliverKey k).stack = s.stack := by unfold State.deliverKey; split <;> rfl
@[simp] theorem deliverKey_dt (s : State) (k : Key) : (s.deliverKey k).dt = s.dt := by unfold State.deliverKey; split <;> rfl
@[simp] theorem deliverKey_st (s : State) (k : Key) : (s.deliverKey k).st = s.st := by unfold State.deliverKey; split <;> rfl
@[simp] theorem deliverKey_mem (s : State) (k : Key) : (s.deliverKey k).mem = s.mem := by unfold State.deliverKey; split <;> rfl
@[simp] theorem deliverKey_pix (s : State) (k : Key) : (s.deliverKey k).pix = s.pix := by unfold State.deliverKey; split <;> rfl
@[simp] theorem deliverKey_dirty (s : State) (k : Key) : (s.deliverKey k).dirty = s.dirty := by unfold State.deliverKey; split <;> rfl
@[simp] theorem deliverKey_keys (s : State) (k : Key) : (s.deliverKey k).keys = s.keys := by unfold State.deliverKey; split <;> rfl
@[simp] theorem deliverKey_waitTarget (s : State) (k : Key) : (s.deliverKey k).waitTarget = s.waitTarget := by unfold State.deliverKey; split <;> rfl
@[simp] theorem deliverKey_tick (s : State) (k : Key) : (s.deliverKey k).tick = s.tick := by unfold State.deliverKey; split <;> rfl
@[simp] theorem deliverKey_fault (s : State) (k : Key) : (s.deliverKey k).fault = s.fault := by unfold State.deliverKey; split <;> rfl
@[simp] theorem deliverKey_rnd (s : State) (k : Key) : (s.deliverKey k).rnd = s.rnd := by unfold State.deliverKey; split <;> rfl
@[simp] theorem deliverKey_rndIndex (s : State) (k : Key) : (s.deliverKey k).rndIndex = s.rndIndex := by unfold State.deliverKey; split <;> rfl
@[simp] theorem deliverKey_host (s : State) (k : Key) : (s.deliverKey k).host = s.host := by unfold State.deliverKey; split <;> rfl

/-! `ackRedraw` -/

@[simp] theorem ackRedraw_cfg (s : State) : (s.ackRedraw).cfg = s.cfg := rfl
@[simp] theorem ackRedraw_v (s : State) : (s.ackRedraw).v = s.v := rfl
@[simp] theorem ackRedraw_i (s : State) : (s.ackRedraw).i = s.i := rfl
@[simp] theorem ackRedraw_pc (s : State) : (s.ackRedraw).pc = s.pc := rfl
@[simp] theorem ackRedraw_sp (s : State) : (s.ackRedraw).sp = s.sp := rfl
@[simp] theorem ackRedraw_stack (s : State) : (s.ackRedraw).stack = s.stack := rfl
@[simp] theorem ackRedraw_dt (s : State) : (s.ackRedraw).dt = s.dt := rfl
@[simp] theorem ackRedraw_st (s : State) : (s.ackRedraw).st = s.st := rfl
@[simp] theorem ackRedraw_mem (s : State) : (s.ackRedraw).mem = s.mem := rfl
@[simp] theorem ackRedraw_pix (s : State) : (s.ackRedraw).pix = s.pix := rfl
@[simp] theorem ackRedraw_keys (s : State) : (s.ackRedraw).keys = s.keys := rfl
@[simp] theorem ackRedraw_waiting (s : State) : (s.ackRedraw).waiting = s.waiting := rfl
@[simp] theorem ackRedraw_waitTarget (s : State) : (s.ackRedraw).waitTarget = s.waitTarget := rfl
@[simp] theorem ackRedraw_tick (s : State) : (s.ackRedraw).tick = s.tick := rfl
@[simp] theorem ackRedraw_fault (s : State) : (s.ackRedraw).fault = s.fault := rfl
@[simp] theorem ackRedraw_rnd (s : State) : (s.ackRedraw).rnd = s.rnd := rfl
@[simp] theorem ackRedraw_rndIndex (s : State) : (s.ackRedraw).rndIndex = s.rndIndex := rfl
@[simp] theorem ackRedraw_host (s : State) : (s.ackRedraw).host = s.host := rfl

/-! `enterHandler` -/

@[simp] theorem enterHandler_cfg (s : State) (b : Byte) : (s.enterHandler b).cfg = s.cfg := rfl
@[simp] theorem enterHandler_v (s : State) (b : Byte) : (s.enterHandler b).v = s.v := rfl
@[simp] theorem enterHandler_i (s : State) (b : Byte) : (s.enterHandler b).i = s.i := rfl
@[simp] theorem enterHandler_sp (s : State) (b : Byte) : (s.enterHandler b).sp = s.sp := rfl
@[simp] theorem enterHandler_stack (s : State) (b : Byte) : (s.enterHandler b).stack = s.stack := rfl
@[simp] theorem enterHandler_dt (s : State) (b : Byte) : (s.enterHandler b).dt = s.dt := rfl
@[simp] theorem enterHandler_st (s : State) (b : Byte) : (s.enterHandler b).st = s.st := rfl
@[simp] theorem enterHandler_mem (s : State) (b : Byte) : (s.enterHandler b).mem = s.mem := rfl
@[simp] theorem enterHandler_pix (s : State) (b : Byte) : (s.enterHandler b).pix = s.pix := rfl
@[simp] theorem enterHandler_dirty (s : State) (b : Byte) : (s.enterHandler b).dirty = s.dirty := rfl
@[simp] theorem enterHandler_keys (s : State) (b : Byte) : (s.enterHandler b).keys = s.keys := rfl
@[simp] theorem enterHandler_waiting (s : State) (b : Byte) : (s.enterHandler b).waiting = s.waiting := rfl
@[simp] theorem enterHandler_waitTarget (s : State) (b : Byte) : (s.enterHandler b).waitTarget = s.waitTarget := rfl
@[simp] theorem enterHandler_tick (s : State) (b : Byte) : (s.enterHandler b).tick = s.tick := rfl
@[simp] theorem enterHandler_fault (s : State) (b : Byte) : (s.enterHandler b).fault = s.fault := rfl
@[simp] theorem enterHandler_host (s : State) (b : Byte) : (s.enterHandler b).host = s.host := rfl

/-! The fields the updates set -/

@[simp] theorem advance_pc (s : State) : s.advance.pc = s.pc + 2 := rfl
@[simp] theorem skipIf_pc (s : State) (c : Bool) : (s.skipIf c).pc = if c then s.pc + 2 else s.pc := by cases c <;> rfl
@[simp] theorem takeFault_pc (s : State) (k : FaultKind) (info fpc : Word) : (s.takeFault k info fpc).pc = fpc := rfl
@[simp] theorem takeFault_fault (s : State) (k : FaultKind) (info fpc : Word) :
    (s.takeFault k info fpc).fault = ⟨k, info, fpc⟩ := rfl
@[simp] theorem storeBytes_mem (s : State) (a : Nat) (bs : List Byte) :
    (s.storeBytes a bs).mem = Memory.writeBytes s.cfg s.mem a bs := rfl
@[simp] theorem enterHandler_pc (s : State) (b : Byte) : (s.enterHandler b).pc = s.pc + 2 := rfl
@[simp] theorem enterHandler_rnd (s : State) (b : Byte) : (s.enterHandler b).rnd = b := rfl
@[simp] theorem enterHandler_rndIndex (s : State) (b : Byte) : (s.enterHandler b).rndIndex = s.rndIndex + 1 := rfl
@[simp] theorem ackRedraw_dirty (s : State) : s.ackRedraw.dirty = false := rfl
@[simp] theorem timerStep_tick (s : State) :
    s.timerStep.tick = if s.tick + 1 = s.cfg.timerDiv then 0 else s.tick + 1 := by unfold State.timerStep; split <;> rfl
@[simp] theorem timerStep_dt (s : State) :
    s.timerStep.dt = if s.tick + 1 = s.cfg.timerDiv then countDown s.dt else s.dt := by unfold State.timerStep; split <;> rfl
@[simp] theorem timerStep_st (s : State) :
    s.timerStep.st = if s.tick + 1 = s.cfg.timerDiv then countDown s.st else s.st := by unfold State.timerStep; split <;> rfl

/-- The fault register after taking a fault and PC are all that changed. -/
theorem takeFault_eq (s : State) (k : FaultKind) (info : Word) : s.takeFault k info s.pc = { s with fault := ⟨k, info, s.pc⟩ } := rfl

end Sys2Proof.Machine
end

