-- ==== Sys2Proof/Laws/Memory.lean ====
section
/-! SUPPORT. The laws of memory: a read after a write, and that every memory operation keeps the canonical form and lists
only existing addresses. -/

namespace Sys2Proof.Machine

theorem read_cell_append (c : Config) (a : Nat) (b : Byte) (rest : Memory)
    (h : ∀ d ∈ rest, d.1 ≠ a) (x : Nat) :
    Memory.read c (Memory.cell c a b ++ rest) x = if x = a then b else Memory.read c rest x := by
  have unlisted : ∀ m : Memory, (∀ d ∈ m, d.1 ≠ a) → Memory.read c m a = resetByte c a := by
    intro m
    induction m with
    | nil => intro _; rfl
    | cons d m ih =>
      intro hm
      obtain ⟨k, v⟩ := d
      have hk : k ≠ a := hm (k, v) (by simp)
      simp only [Memory.read, if_neg hk]
      exact ih fun d hd => hm d (by simp [hd])
  unfold Memory.cell
  split
  · next hb =>
    by_cases hx : x = a
    · subst hx; simp [unlisted rest h, hb]
    · simp [hx]
  · by_cases hx : x = a
    · subst hx; simp [Memory.read]
    · simp [Memory.read, hx, Ne.symm hx]

/-- In canonical form every address of the tail is above the head's. -/
theorem wf_cons {c : Config} {k : Nat} {v : Byte} {rest : Memory} :
    Memory.wf c ((k, v) :: rest) = true ↔
      v ≠ resetByte c k ∧ (∀ d ∈ rest, k < d.1) ∧ Memory.wf c rest = true := by
  simp [Memory.wf, and_assoc]

/-- A read after a write to a canonical memory. -/
theorem read_write (c : Config) (m : Memory) (hm : Memory.wf c m = true) (a : Nat) (b : Byte) (x : Nat) :
    Memory.read c (Memory.write c m a b) x = if x = a then b else Memory.read c m x := by
  induction m with
  | nil => simpa [Memory.write] using read_cell_append c a b [] (by simp) x
  | cons d rest ih =>
    obtain ⟨k, v⟩ := d
    obtain ⟨hv, hlt, hrest⟩ := wf_cons.mp hm
    simp only [Memory.write]
    split
    · next hak =>
      refine read_cell_append c a b _ ?_ x
      intro d hd
      rcases List.mem_cons.mp hd with rfl | hd
      · exact Nat.ne_of_gt hak
      · exact Nat.ne_of_gt (Nat.lt_trans hak (hlt d hd))
    · split
      · next hak =>
        subst hak
        rw [read_cell_append c a b rest (fun d hd => Nat.ne_of_gt (hlt d hd)) x]
        by_cases hx : x = a
        · simp [hx]
        · simp [Memory.read, hx, Ne.symm hx]
      · next hak' hak =>
        by_cases hx : k = x
        · subst hx; simp [Memory.read, Ne.symm hak]
        · simp [Memory.read, hx, ih hrest]

theorem mem_write {c : Config} {m : Memory} {a : Nat} {b : Byte} {d : Host.Cell} (h : d ∈ Memory.write c m a b) :
    d = (a, b) ∨ d ∈ m := by
  have cell : ∀ {d}, d ∈ Memory.cell c a b → d = (a, b) := by
    intro d hd; unfold Memory.cell at hd; split at hd <;> simp_all
  induction m with
  | nil => exact .inl (cell h)
  | cons e rest ih =>
    obtain ⟨k, v⟩ := e
    simp only [Memory.write] at h
    split at h
    · rcases List.mem_append.mp h with h | h
      · exact .inl (cell h)
      · exact .inr h
    · split at h
      · rcases List.mem_append.mp h with h | h
        · exact .inl (cell h)
        · exact .inr (by simp [h])
      · rcases List.mem_cons.mp h with h | h
        · exact .inr (by simp [h])
        · rcases ih h with h | h
          · exact .inl h
          · exact .inr (by simp [h])

theorem wf_cell_append {c : Config} {a : Nat} {b : Byte} {rest : Memory} (h : ∀ d ∈ rest, a < d.1)
    (hr : Memory.wf c rest = true) : Memory.wf c (Memory.cell c a b ++ rest) = true := by
  unfold Memory.cell
  split
  · simpa using hr
  · next hb => exact wf_cons.mpr ⟨hb, h, hr⟩

/-- A write keeps the canonical form. -/
theorem write_wf (c : Config) (m : Memory) (hm : Memory.wf c m = true) (a : Nat) (b : Byte) :
    Memory.wf c (Memory.write c m a b) = true := by
  induction m with
  | nil => simpa [Memory.write] using wf_cell_append (c := c) (a := a) (b := b) (rest := []) (by simp) rfl
  | cons d rest ih =>
    obtain ⟨k, v⟩ := d
    obtain ⟨hv, hlt, hrest⟩ := wf_cons.mp hm
    simp only [Memory.write]
    split
    · next hak =>
      refine wf_cell_append ?_ hm
      intro d hd
      rcases List.mem_cons.mp hd with rfl | hd
      · exact hak
      · exact Nat.lt_trans hak (hlt d hd)
    · split
      · next hak => subst hak; exact wf_cell_append hlt hrest
      · next hak' hak =>
        refine wf_cons.mpr ⟨hv, ?_, ih hrest⟩
        intro d hd
        rcases mem_write hd with rfl | hd
        · exact Nat.lt_of_le_of_ne (Nat.le_of_not_lt hak') (Ne.symm hak)
        · exact hlt d hd

/-- A write below `MEM_SIZE` lists only existing addresses. -/
theorem write_inBounds {c : Config} {m : Memory} (hm : Memory.inBounds c m = true) {a : Nat} (ha : a < c.memSize)
    (b : Byte) : Memory.inBounds c (Memory.write c m a b) = true := by
  simp only [Memory.inBounds, List.all_eq_true, decide_eq_true_eq] at *
  intro d hd
  rcases mem_write hd with rfl | hd
  · exact ha
  · exact hm d hd

/-- Several writes keep the canonical form. -/
theorem writeBytes_wf (c : Config) (bs : List Byte) (m : Memory) (a : Nat) (hm : Memory.wf c m = true) :
    Memory.wf c (Memory.writeBytes c m a bs) = true := by
  induction bs generalizing m a with
  | nil => exact hm
  | cons b bs ih => exact ih _ _ (write_wf c m hm a b)

/-- Several writes below `MEM_SIZE` list only existing addresses. -/
theorem writeBytes_inBounds (c : Config) (bs : List Byte) (m : Memory) (a : Nat) (hm : Memory.inBounds c m = true)
    (ha : a + bs.length ≤ c.memSize) : Memory.inBounds c (Memory.writeBytes c m a bs) = true := by
  induction bs generalizing m a with
  | nil => exact hm
  | cons b bs ih =>
    simp only [List.length_cons] at ha
    exact ih _ _ (write_inBounds hm (by omega) b) (by omega)

/-- A read after several writes to a canonical memory: the byte written there, or else what was there. -/
theorem read_writeBytes (c : Config) (bs : List Byte) (m : Memory) (a : Nat) (hm : Memory.wf c m = true) (x : Nat) :
    Memory.read c (Memory.writeBytes c m a bs) x =
      if a ≤ x ∧ x < a + bs.length then bs.getD (x - a) 0 else Memory.read c m x := by
  induction bs generalizing m a with
  | nil =>
    have : ¬ (a ≤ x ∧ x < a) := by omega
    simp [Memory.writeBytes, this]
  | cons b bs ih =>
    simp only [Memory.writeBytes, ih _ _ (write_wf c m hm a b), read_write c m hm, List.length_cons]
    by_cases hx : x = a
    · subst hx; simp
    · by_cases h : a + 1 ≤ x ∧ x < a + 1 + bs.length
      · obtain ⟨k, hk⟩ : ∃ k, x - a = k + 1 := ⟨x - a - 1, by omega⟩
        have h2 : a ≤ x ∧ x < a + (bs.length + 1) := by omega
        have h3 : x - (a + 1) = k := by omega
        simp [h, h2, hk, h3]
      · have h2 : ¬ (a ≤ x ∧ x < a + (bs.length + 1)) := by omega
        rw [if_neg h, if_neg h2, if_neg hx]

/-- The byte at an address of a state after bytes were stored. -/
theorem readByte_storeBytes (s : State) (hm : Memory.wf s.cfg s.mem = true) (a : Nat) (bs : List Byte) (x : Nat) :
    (s.storeBytes a bs).readByte x = if a ≤ x ∧ x < a + bs.length then bs.getD (x - a) 0 else s.readByte x :=
  read_writeBytes s.cfg bs s.mem a hm x

end Sys2Proof.Machine
end

