-- ==== Sys2Proof/Laws/Ops.lean ====
section
/-! SUPPORT. One lemma for each shared operation, saying everything it can do: registers, address checks, a handler behind
its checks, the flag-writing operations, the key skip and the timers. -/

namespace Sys2Proof.Machine

/-! Registers -/

@[simp] theorem V_setV (s : State) (r r' : Reg) (b : Byte) :
    (s.setV r b).V r' = if r' = r then b else s.V r' := by
  unfold State.V State.setV
  by_cases h : r' = r
  · subst h; simp
  · have : r.val ≠ r'.val := fun e => h (Fin.ext e.symm)
    simp [h, this]

/-- Two states with the same register file read the same registers. -/
theorem V_congr {s t : State} (h : t.v = s.v) (r : Reg) : t.V r = s.V r := by simp [State.V, h]

/-- Register files that read alike are equal. -/
theorem v_ext {s t : State} (h : ∀ r, t.V r = s.V r) : t.v = s.v :=
  Vector.ext fun i hi => h ⟨i, hi⟩

theorem setV_setV_same (s : State) (r : Reg) (b b' : Byte) : (s.setV r b).setV r b' = s.setV r b' := by
  have : ((s.setV r b).setV r b').v = (s.setV r b').v := v_ext fun q => by simp; split <;> rfl
  show { s with v := _ } = { s with v := _ }
  exact congrArg (fun w => { s with v := w }) this

@[simp] theorem length_firstRegs (s : State) (x : Reg) : (s.firstRegs x).length = x.val + 1 := by
  have := x.isLt
  simp [State.firstRegs]

/-- The k-th of V0 to V[x]. -/
theorem firstRegs_getD (s : State) (x r : Reg) (h : r ≤ x) : (s.firstRegs x).getD r.val 0 = s.V r := by
  have hr : r.val < x.val + 1 := Nat.lt_succ_of_le h
  have := r.isLt
  simp [State.firstRegs, State.V, hr]

/-! Address checks -/

/-- The address a search over `n` addresses from `a` up finds is the lowest that meets the test. -/
theorem find_range'_some {p : Nat → Bool} {a n k : Nat} (h : (List.range' a n).find? p = some k) :
    a ≤ k ∧ k < a + n ∧ p k = true ∧ ∀ j, a ≤ j → j < k → p j = false := by
  induction n generalizing a with
  | zero => simp at h
  | succ n ih =>
    rw [List.range'_succ, List.find?_cons] at h
    split at h
    · next hp =>
      obtain rfl : a = k := by simpa using h
      exact ⟨Nat.le_refl _, by omega, hp, fun j h1 h2 => by omega⟩
    · next hp =>
      obtain ⟨h1, h2, h3, h4⟩ := ih h
      refine ⟨by omega, by omega, h3, fun j hj hjk => ?_⟩
      rcases Nat.eq_or_lt_of_le hj with rfl | hlt
      · simpa using hp
      · exact h4 j hlt hjk

theorem find_range'_none {p : Nat → Bool} {a n : Nat} :
    (List.range' a n).find? p = none ↔ ∀ k, a ≤ k → k < a + n → p k = false := by
  simp [List.find?_eq_none, List.mem_range'_1]

/-- Every address checked exists, or the fault names the lowest that does not. -/
theorem boundsFault_eq (c : Config) (a n : Nat) :
    boundsFault c a n =
      if a + n ≤ c.memSize ∨ n = 0 then none else some (.memOutOfBounds, BitVec.ofNat 16 (max a c.memSize)) := by
  unfold boundsFault
  cases hf : (List.range' a n).find? fun k => decide (c.memSize ≤ k) with
  | none =>
    have := find_range'_none.mp hf
    simp only [decide_eq_false_iff_not, Nat.not_le] at this
    rw [if_pos]; · rfl
    rcases Nat.eq_zero_or_pos n with hn | hn
    · exact .inr hn
    · have := this (a + n - 1) (by omega) (by omega)
      exact .inl (by omega)
  | some k =>
    obtain ⟨h1, h2, h3, h4⟩ := find_range'_some hf
    simp only [decide_eq_true_eq] at h3
    have hk : k = max a c.memSize := by
      rcases Nat.lt_or_ge (max a c.memSize) k with hlt | hge
      · have := h4 (max a c.memSize) (by omega) hlt
        simp only [decide_eq_false_iff_not, Nat.not_le] at this
        omega
      · omega
    rw [if_neg (by omega), hk]; rfl

theorem boundsFault_none {c : Config} {a n : Nat} : boundsFault c a n = none ↔ a + n ≤ c.memSize ∨ n = 0 := by
  rw [boundsFault_eq]; split <;> simp_all

/-- No font address is checked, or the policy allows writing them. -/
theorem fontFault_none {c : Config} {a n : Nat} :
    fontFault c a n = none ↔ (c.fontWrite = .fault → ∀ k, a ≤ k → k < a + n → c.inFont k = false) := by
  unfold fontFault
  cases c.fontWrite with
  | write => simp
  | fault => simp only [Option.map_eq_none_iff, find_range'_none, true_implies]

/-- A store check passes when both its checks do. -/
theorem storeFault_none {c : Config} {a n : Nat} :
    storeFault c a n = none ↔ boundsFault c a n = none ∧ fontFault c a n = none := by
  unfold storeFault; cases boundsFault c a n <;> simp

/-- A check raises a fault of a kind other than NONE. -/
theorem boundsFault_kind {c : Config} {a n : Nat} {k : FaultKind} {info : Word}
    (h : boundsFault c a n = some (k, info)) : k = .memOutOfBounds := by
  unfold boundsFault at h
  cases hf : (List.range' a n).find? fun k => decide (c.memSize ≤ k) with
  | none => simp [hf] at h
  | some j => simp [hf] at h; exact h.1.symm

theorem storeFault_kind {c : Config} {a n : Nat} {k : FaultKind} {info : Word}
    (h : storeFault c a n = some (k, info)) : k = .memOutOfBounds ∨ k = .fontRegionWrite := by
  unfold storeFault at h
  cases hb : boundsFault c a n with
  | some d => obtain ⟨k', i'⟩ := d; simp [hb] at h; exact .inl (h.1 ▸ boundsFault_kind hb)
  | none =>
    rw [hb] at h
    have h : fontFault c a n = some (k, info) := by simpa using h
    unfold fontFault at h
    split at h
    · simp at h
    · cases hf : (List.range' a n).find? fun k => c.inFont k with
      | none => simp [hf] at h
      | some j => simp [hf] at h; exact .inr h.1.symm

/-! A handler behind its checks -/

@[simp] theorem unlessFault_none (s run : State) : unlessFault none s run = .next run := rfl

@[simp] theorem unlessFault_some (k : FaultKind) (info : Word) (s run : State) :
    unlessFault (some (k, info)) s run = raise k info s := rfl

/-- What a handler behind its checks can answer: the fault found, or its run. -/
theorem unlessFault_cases {found : Option (FaultKind × Word)} {s run t : State}
    (h : unlessFault found s run = .next t) :
    (∃ k info, found = some (k, info) ∧ t = s.takeFault k info (s.pc - 2)) ∨ (found = none ∧ t = run) := by
  cases found with
  | none => exact .inr ⟨rfl, by simpa using h.symm⟩
  | some d =>
    obtain ⟨k, info⟩ := d
    exact .inl ⟨k, info, rfl, by simpa [raise] using h.symm⟩

/-! Flag-writing operations -/

/-- A flag-writing operation changes the register file alone. -/
theorem writeFlagged_frame (m : VfMode) (f g : Byte → Byte → Byte) (x y : Reg) (s : State) :
    writeFlagged m f g x y s = { s with v := (writeFlagged m f g x y s).v } := by
  cases m <;> rfl

/-- A register that is neither the destination nor VF is left alone. -/
theorem writeFlagged_V_other (m : VfMode) (f g : Byte → Byte → Byte) (x y r : Reg) (s : State) (h1 : r ≠ x)
    (h2 : r ≠ VF) : (writeFlagged m f g x y s).V r = s.V r := by
  cases m <;> simp [writeFlagged, h1, h2]

/-- The operands latched, the result written last. -/
theorem writeFlagged_latchedResultLast (f g : Byte → Byte → Byte) (x y r : Reg) (s : State) :
    (writeFlagged .latchedResultLast f g x y s).V r =
      if r = x then g (s.V x) (s.V y) else if r = VF then f (s.V x) (s.V y) else s.V r := by
  simp [writeFlagged]

/-- The operands latched, the flag written last. -/
theorem writeFlagged_latchedFlagLast (f g : Byte → Byte → Byte) (x y r : Reg) (s : State) :
    (writeFlagged .latchedFlagLast f g x y s).V r =
      if r = VF then f (s.V x) (s.V y) else if r = x then g (s.V x) (s.V y) else s.V r := by
  simp [writeFlagged]

/-- The flag written first, the result from the registers as they then stand. -/
theorem writeFlagged_sequential (f g : Byte → Byte → Byte) (x y r : Reg) (s : State) :
    (writeFlagged .sequential f g x y s).V r =
      if r = x then
        g (if x = VF then f (s.V x) (s.V y) else s.V x) (if y = VF then f (s.V x) (s.V y) else s.V y)
      else if r = VF then f (s.V x) (s.V y) else s.V r := by
  simp [writeFlagged]

/-! The key skip -/

/-- What a key skip can answer: the key-index fault under its policy, or the skip decided by the key. -/
theorem keySkip_cases (wanted : Bool) (x : Reg) (s : State) :
    (s.cfg.keyIndex = .fault ∧ 16 ≤ (s.V x).toNat ∧
      keySkip wanted x s = raise .keyIndexRange (zextByte (s.V x)) s) ∨
    ∃ c, keySkip wanted x s = .next (s.skipIf c) := by
  unfold keySkip keyLookup
  split
  · exact .inr ⟨_, rfl⟩
  · exact .inr ⟨_, rfl⟩
  · next h =>
    split at h
    · simp at h
    · split at h
      · next hlt hp => exact .inl ⟨hp, by omega, rfl⟩
      · simp at h
      · simp at h

/-! Timers -/

theorem countDown_toNat (t : Byte) : (countDown t).toNat = t.toNat - 1 := by
  unfold countDown
  split
  · next h => subst h; rfl
  · next h =>
    have : t.toNat ≠ 0 := fun e => h (BitVec.eq_of_toNat_eq (by simpa using e))
    have := t.isLt
    rw [BitVec.toNat_sub]; simp; omega

end Sys2Proof.Machine
end

