-- ==== Sys2Proof/Laws/Params.lean ====
section
/-! SUPPORT. Under a legal configuration the sizes of State are the parameters of spec/00_scope.md R7: `NREG`, `NKEYS` and the
widths. -/

namespace Sys2Proof.Machine

/-- What `Config.sourceSizes` says. -/
theorem sourceSizes_iff {c : Config} : c.sourceSizes = true ↔
    c.nreg = 16 ∧ c.regW = 8 ∧ c.iW = 16 ∧ c.pcW = 16 ∧ c.stackEntryW = 16 ∧ c.timerW = 8 ∧ c.nkeys = 16 := by
  simp [Config.sourceSizes, and_assoc]

/-- A configuration that meets R8 has the source's sizes. -/
theorem sourceSizes_of_wf {c : Config} (h : c.wf = true) : c.sourceSizes = true := by
  unfold Config.wf at h
  exact (Bool.and_eq_true_iff.mp h).2

/-- The counts and widths of the state are those of its configuration. -/
theorem state_sizes {s : State} (h : s.cfg.wf = true) :
    s.v.toList.length = s.cfg.nreg ∧ s.keys.toList.length = s.cfg.nkeys ∧ (∀ r, (s.V r).toNat < 2 ^ s.cfg.regW) ∧
    s.i.toNat < 2 ^ s.cfg.iW ∧ s.pc.toNat < 2 ^ s.cfg.pcW ∧ (∀ k, (s.stackAt k).toNat < 2 ^ s.cfg.stackEntryW) ∧
    s.dt.toNat < 2 ^ s.cfg.timerW ∧ s.st.toNat < 2 ^ s.cfg.timerW := by
  obtain ⟨h1, h2, h3, h4, h5, h6, h7⟩ := sourceSizes_iff.mp (sourceSizes_of_wf h)
  rw [h1, h2, h3, h4, h5, h6, h7]
  exact ⟨by simp, by simp, fun r => (s.V r).isLt, s.i.isLt, s.pc.isLt, fun k => (s.stackAt k).isLt, s.dt.isLt, s.st.isLt⟩

end Sys2Proof.Machine
end

