-- ==== Sys2Proof/Laws/PerInstr.lean ====
section
/-! SUPPORT. The family WrittenForm, one lemma a constructor: an instruction as R80 writes it passes the checks of
WellFormed.lean and stands for itself, so every term of `Instr` is well formed. -/

namespace Sys2Proof.Laws.WrittenForm

/-- The written form of `i` passes the checks and stands for `i`. -/
def Statement (i : Instr) : Prop := i.WellFormed

theorem checkAddr_toNat (a : Addr) : checkAddr a.toNat = .ok a := by
  have := a.isLt
  simp [checkAddr, this]

theorem checkByte_toNat (b : Byte) : checkByte b.toNat = .ok b := by
  have := b.isLt
  simp [checkByte, this]

theorem checkNibble_val (r : Fin 16) : checkNibble r.val = .ok r := by
  simp [checkNibble]

theorem clearScreen : Statement .clearScreen := rfl
theorem ret : Statement .ret := rfl
theorem jump (nnn : Addr) : Statement (.jump nnn) := by
  show formAddr .jump [nnn.toNat] = .ok (.jump nnn)
  simp [formAddr, checkAddr_toNat, Except.map]
theorem call (nnn : Addr) : Statement (.call nnn) := by
  show formAddr .call [nnn.toNat] = .ok (.call nnn)
  simp [formAddr, checkAddr_toNat, Except.map]
theorem skipEqImm (x : Reg) (kk : Byte) : Statement (.skipEqImm x kk) := by
  show formRegImm .skipEqImm [x.val, kk.toNat] = .ok (.skipEqImm x kk)
  simp [formRegImm, checkNibble_val, checkByte_toNat, Except.map, Except.bind]
theorem skipNeqImm (x : Reg) (kk : Byte) : Statement (.skipNeqImm x kk) := by
  show formRegImm .skipNeqImm [x.val, kk.toNat] = .ok (.skipNeqImm x kk)
  simp [formRegImm, checkNibble_val, checkByte_toNat, Except.map, Except.bind]
theorem skipEqReg (x : Reg) (y : Reg) : Statement (.skipEqReg x y) := by
  show formRegReg .skipEqReg [x.val, y.val] = .ok (.skipEqReg x y)
  simp [formRegReg, checkNibble_val, Except.map, Except.bind]
theorem loadImm (x : Reg) (kk : Byte) : Statement (.loadImm x kk) := by
  show formRegImm .loadImm [x.val, kk.toNat] = .ok (.loadImm x kk)
  simp [formRegImm, checkNibble_val, checkByte_toNat, Except.map, Except.bind]
theorem addImm (x : Reg) (kk : Byte) : Statement (.addImm x kk) := by
  show formRegImm .addImm [x.val, kk.toNat] = .ok (.addImm x kk)
  simp [formRegImm, checkNibble_val, checkByte_toNat, Except.map, Except.bind]
theorem loadReg (x : Reg) (y : Reg) : Statement (.loadReg x y) := by
  show formRegReg .loadReg [x.val, y.val] = .ok (.loadReg x y)
  simp [formRegReg, checkNibble_val, Except.map, Except.bind]
theorem orReg (x : Reg) (y : Reg) : Statement (.orReg x y) := by
  show formRegReg .orReg [x.val, y.val] = .ok (.orReg x y)
  simp [formRegReg, checkNibble_val, Except.map, Except.bind]
theorem andReg (x : Reg) (y : Reg) : Statement (.andReg x y) := by
  show formRegReg .andReg [x.val, y.val] = .ok (.andReg x y)
  simp [formRegReg, checkNibble_val, Except.map, Except.bind]
theorem xorReg (x : Reg) (y : Reg) : Statement (.xorReg x y) := by
  show formRegReg .xorReg [x.val, y.val] = .ok (.xorReg x y)
  simp [formRegReg, checkNibble_val, Except.map, Except.bind]
theorem addReg (x : Reg) (y : Reg) : Statement (.addReg x y) := by
  show formRegReg .addReg [x.val, y.val] = .ok (.addReg x y)
  simp [formRegReg, checkNibble_val, Except.map, Except.bind]
theorem sub (x : Reg) (y : Reg) : Statement (.sub x y) := by
  show formRegReg .sub [x.val, y.val] = .ok (.sub x y)
  simp [formRegReg, checkNibble_val, Except.map, Except.bind]
theorem shr (x : Reg) : Statement (.shr x) := by
  show formShift .shr [x.val] = .ok (.shr x)
  simp [formShift, checkNibble_val, Except.map]
theorem subn (x : Reg) (y : Reg) : Statement (.subn x y) := by
  show formRegReg .subn [x.val, y.val] = .ok (.subn x y)
  simp [formRegReg, checkNibble_val, Except.map, Except.bind]
theorem shl (x : Reg) : Statement (.shl x) := by
  show formShift .shl [x.val] = .ok (.shl x)
  simp [formShift, checkNibble_val, Except.map]
theorem skipNeqReg (x : Reg) (y : Reg) : Statement (.skipNeqReg x y) := by
  show formRegReg .skipNeqReg [x.val, y.val] = .ok (.skipNeqReg x y)
  simp [formRegReg, checkNibble_val, Except.map, Except.bind]
theorem loadIndex (nnn : Addr) : Statement (.loadIndex nnn) := by
  show formAddr .loadIndex [nnn.toNat] = .ok (.loadIndex nnn)
  simp [formAddr, checkAddr_toNat, Except.map]
theorem jumpOffset (nnn : Addr) : Statement (.jumpOffset nnn) := by
  show formAddr .jumpOffset [nnn.toNat] = .ok (.jumpOffset nnn)
  simp [formAddr, checkAddr_toNat, Except.map]
theorem rand (x : Reg) (kk : Byte) : Statement (.rand x kk) := by
  show formRegImm .rand [x.val, kk.toNat] = .ok (.rand x kk)
  simp [formRegImm, checkNibble_val, checkByte_toNat, Except.map, Except.bind]
theorem draw (x : Reg) (y : Reg) (n : RowCount) : Statement (.draw x y n) := by
  show formDraw .draw [x.val, y.val, n.val] = .ok (.draw x y n)
  simp [formDraw, checkNibble_val, Except.map, Except.bind]
theorem skipKeyPressed (x : Reg) : Statement (.skipKeyPressed x) := by
  show formReg .skipKeyPressed [x.val] = .ok (.skipKeyPressed x)
  simp [formReg, checkNibble_val, Except.map]
theorem skipKeyNotPressed (x : Reg) : Statement (.skipKeyNotPressed x) := by
  show formReg .skipKeyNotPressed [x.val] = .ok (.skipKeyNotPressed x)
  simp [formReg, checkNibble_val, Except.map]
theorem loadDelay (x : Reg) : Statement (.loadDelay x) := by
  show formReg .loadDelay [x.val] = .ok (.loadDelay x)
  simp [formReg, checkNibble_val, Except.map]
theorem waitKey (x : Reg) : Statement (.waitKey x) := by
  show formReg .waitKey [x.val] = .ok (.waitKey x)
  simp [formReg, checkNibble_val, Except.map]
theorem setDelay (x : Reg) : Statement (.setDelay x) := by
  show formReg .setDelay [x.val] = .ok (.setDelay x)
  simp [formReg, checkNibble_val, Except.map]
theorem setSound (x : Reg) : Statement (.setSound x) := by
  show formReg .setSound [x.val] = .ok (.setSound x)
  simp [formReg, checkNibble_val, Except.map]
theorem addIndex (x : Reg) : Statement (.addIndex x) := by
  show formReg .addIndex [x.val] = .ok (.addIndex x)
  simp [formReg, checkNibble_val, Except.map]
theorem loadFontAddr (x : Reg) : Statement (.loadFontAddr x) := by
  show formReg .loadFontAddr [x.val] = .ok (.loadFontAddr x)
  simp [formReg, checkNibble_val, Except.map]
theorem storeBcd (x : Reg) : Statement (.storeBcd x) := by
  show formReg .storeBcd [x.val] = .ok (.storeBcd x)
  simp [formReg, checkNibble_val, Except.map]
theorem storeRegs (x : Reg) : Statement (.storeRegs x) := by
  show formReg .storeRegs [x.val] = .ok (.storeRegs x)
  simp [formReg, checkNibble_val, Except.map]
theorem loadRegs (x : Reg) : Statement (.loadRegs x) := by
  show formReg .loadRegs [x.val] = .ok (.loadRegs x)
  simp [formReg, checkNibble_val, Except.map]

end Sys2Proof.Laws.WrittenForm
end

