-- ==== Sys2Proof/Laws/Pixels.lean ====
section
/-! SUPPORT. The laws of the pixel engine: one pixel after an inversion, that every operation keeps the display's size, and
what a draw leaves unchanged. -/

namespace Sys2Proof.Machine

theorem sized_iff {c : Config} {p : Display} :
    Display.sized c p = true ↔ p.length = c.displayH ∧ ∀ r ∈ p, r.length = c.displayW := by
  simp [Display.sized]

/-- One pixel of a display of its size after an inversion. -/
theorem pixel_invert {c : Config} {p : Display} (hp : Display.sized c p = true) {row col : Nat}
    (hr : row < c.displayH) (hc : col < c.displayW) (r k : Nat) :
    (p.invert row col).pixel r k = if r = row ∧ k = col then !p.pixel row col else p.pixel r k := by
  obtain ⟨hl, hw⟩ := sized_iff.mp hp
  unfold Display.invert Display.pixel
  have hrow : row < p.length := by omega
  have hlen : (p[row]).length = c.displayW := hw _ (List.getElem_mem hrow)
  simp only [List.getD_eq_getElem?_getD, List.getElem?_modify]
  by_cases h : r = row
  · subst h
    simp only [true_and, if_true, List.getElem?_eq_getElem hrow, Option.getD_some]
    by_cases hk : k = col
    · subst hk
      have : k < (p[r]).length := by omega
      simp [this]
    · simp [hk, Ne.symm hk]
  · have h' : ¬ row = r := fun e => h e.symm
    simp only [h, h', false_and, if_false]
    cases p[r]? <;> rfl

theorem sized_invert {c : Config} {p : Display} (hp : Display.sized c p = true) (row col : Nat) :
    Display.sized c (p.invert row col) = true := by
  obtain ⟨hl, hw⟩ := sized_iff.mp hp
  refine sized_iff.mpr ⟨by simp [Display.invert, hl], fun r hr => ?_⟩
  obtain ⟨k, hk, rfl⟩ := List.getElem_of_mem hr
  simp only [Display.invert, List.getElem_modify]
  split
  · simp [hw _ (List.getElem_mem _)]
  · exact hw _ (List.getElem_mem _)

theorem sized_blank (c : Config) : Display.sized c (blankDisplay c) = true := by
  refine sized_iff.mpr ⟨by simp [blankDisplay], fun r hr => ?_⟩
  obtain ⟨_, rfl⟩ := List.mem_replicate.mp hr
  simp

/-- Every pixel of the blank display is 0. -/
theorem pixel_blank (c : Config) (r k : Nat) : Display.pixel (blankDisplay c) r k = false := by
  unfold blankDisplay Display.pixel
  simp only [List.getD_eq_getElem?_getD, List.getElem?_replicate]
  split
  · simp only [Option.getD_some, List.getElem?_replicate]; split <;> rfl
  · rfl

theorem sized_drawBits (c : Config) (row cx : Nat) (b : Byte) (ks : List Nat) (acc : Display × Bool)
    (h : Display.sized c acc.1 = true) : Display.sized c (drawBits c row cx b ks acc).1 = true := by
  induction ks generalizing acc with
  | nil => exact h
  | cons k ks ih =>
    simp only [drawBits]
    split
    · exact ih _ (sized_invert h _ _)
    · exact ih _ h

theorem sized_drawSprite (c : Config) (p : Display) (cx cy : Nat) (b : Byte) (h : Display.sized c p = true) :
    Display.sized c (drawSprite c p cx cy b).1 = true := sized_drawBits _ _ _ _ _ _ h

theorem sized_drawRows (s : State) (vx vy : Nat) (rs : List Nat) (acc : Display × Bool)
    (h : Display.sized s.cfg acc.1 = true) : Display.sized s.cfg (drawRows s vx vy rs acc).1 = true := by
  induction rs generalizing acc with
  | nil => exact h
  | cons r rs ih => exact ih _ (sized_drawSprite _ _ _ _ _ h)

/-- The rows of a sequential draw change registers and pixels alone, and of the registers VF alone. -/
theorem drawRowsLive_frame (x y : Reg) (rs : List Nat) (s : State) :
    drawRowsLive x y rs s = { s with v := (drawRowsLive x y rs s).v, pix := (drawRowsLive x y rs s).pix } ∧
    (∀ r, r ≠ VF → (drawRowsLive x y rs s).V r = s.V r) ∧
    (Display.sized s.cfg s.pix = true → Display.sized s.cfg (drawRowsLive x y rs s).pix = true) := by
  induction rs generalizing s with
  | nil => exact ⟨rfl, fun _ _ => rfl, id⟩
  | cons r rs ih =>
    simp only [drawRowsLive]
    generalize hd : drawSprite s.cfg s.pix (s.V x).toNat ((s.V y).toNat + r) (s.readByte (s.effAddr r)) = d
    obtain ⟨h1, h2, h3⟩ := ih { (if d.2 then s.setV VF 1 else s) with pix := d.1 }
    refine ⟨?_, ?_, ?_⟩
    · rw [h1]; split <;> rfl
    · intro q hq
      rw [h2 q hq]
      split
      · exact (V_setV s VF q 1).trans (if_neg hq)
      · rfl
    · intro hs
      have hcfg : ({ (if d.2 then s.setV VF 1 else s) with pix := d.1 } : State).cfg = s.cfg := by
        split <;> rfl
      rw [← hcfg]
      refine h3 ?_
      rw [hcfg, ← hd]
      exact sized_drawSprite _ _ _ _ _ hs

/-- What a draw leaves unchanged, in each mode: everything but the registers, the pixels and `dirty`, and of the
registers all but VF; and it keeps the display's size. -/
theorem drawLatched_frame (x y : Reg) (n : RowCount) (s : State) :
    drawLatched x y n s =
      { s with v := (drawLatched x y n s).v, pix := (drawLatched x y n s).pix, dirty := true } ∧
    (∀ r, r ≠ VF → (drawLatched x y n s).V r = s.V r) ∧
    (Display.sized s.cfg s.pix = true → Display.sized s.cfg (drawLatched x y n s).pix = true) := by
  refine ⟨rfl, fun r hr => ?_, fun h => ?_⟩
  · exact (V_setV s VF r _).trans (if_neg hr)
  · exact sized_drawRows _ _ _ _ _ h

theorem drawSequential_frame (x y : Reg) (n : RowCount) (s : State) :
    drawSequential x y n s =
      { s with v := (drawSequential x y n s).v, pix := (drawSequential x y n s).pix, dirty := true } ∧
    (∀ r, r ≠ VF → (drawSequential x y n s).V r = s.V r) ∧
    (Display.sized s.cfg s.pix = true → Display.sized s.cfg (drawSequential x y n s).pix = true) := by
  obtain ⟨h1, h2, h3⟩ := drawRowsLive_frame x y (List.range n.val) (s.setV VF 0)
  refine ⟨?_, fun r hr => ?_, fun h => h3 h⟩
  · unfold drawSequential; rw [h1]; rfl
  · exact (h2 r hr).trans ((V_setV s VF r 0).trans (if_neg hr))

end Sys2Proof.Machine
end

