-- ==== Sys2Proof/Laws/Step.lean ====
section
/-! SUPPORT. What a cycle, a transaction and a step can do, each said once. -/

namespace Sys2Proof.Machine

/-- What follows a handler that answers `t`: the timer step, or the recorded fault over the state before the cycle. -/
theorem finishCycle_next (s t : State) :
    finishCycle s (.next t) =
      .next (if t.fault.kind = .none then t.timerStep else { s with fault := t.fault }) := by
  simp only [finishCycle]; split <;> rfl

/-- A cycle that answers `t` did nothing (halted or waiting), recorded a fetch or decode fault, recorded the handler's
fault, or ran an instruction and the timer step. -/
theorem cycle_cases {rnd : Byte} {s t : State} (h : cycle rnd s = .next t) :
    ((s.fault.kind ≠ .none ∨ s.waiting = true) ∧ t = s) ∨
    (s.Running ∧ ∃ kind info, s.fetchFault = some (kind, info) ∧ t = s.takeFault kind info s.pc) ∨
    (s.Running ∧ s.fetchFault = none ∧ ∃ raw, decode s.wordAtPc = .error (.decodeFailure raw) ∧
      t = s.takeFault .decodeFailure raw s.pc) ∨
    (s.Running ∧ s.fetchFault = none ∧ ∃ i u, decode s.wordAtPc = .ok i ∧
      exec i (s.enterHandler rnd) = .next u ∧
      ((u.fault.kind ≠ .none ∧ t = { s with fault := u.fault }) ∨ (u.fault.kind = .none ∧ t = u.timerStep))) := by
  unfold cycle at h
  split at h
  · next hf => exact .inl ⟨.inl hf, by simpa using h.symm⟩
  · next hf =>
    have hf : s.fault.kind = .none := by simpa using hf
    split at h
    · next hw => exact .inl ⟨.inr hw, by simpa using h.symm⟩
    · next hw =>
      have hrun : s.Running := ⟨hf, by simpa using hw⟩
      cases hff : s.fetchFault with
      | some d =>
        obtain ⟨kind, info⟩ := d
        rw [hff] at h
        exact .inr (.inl ⟨hrun, kind, info, rfl, by simpa using h.symm⟩)
      | none =>
        rw [hff] at h
        simp only [runWord] at h
        cases hd : decode s.wordAtPc with
        | error e =>
          obtain ⟨raw⟩ := e
          rw [hd] at h
          exact .inr (.inr (.inl ⟨hrun, rfl, raw, rfl, by simpa using h.symm⟩))
        | ok i =>
          rw [hd] at h
          refine .inr (.inr (.inr ⟨hrun, rfl, i, ?_⟩))
          cases he : exec i (s.enterHandler rnd) with
          | next u =>
            simp only [he, finishCycle_next, Host.Outcome.next.injEq] at h
            refine ⟨u, rfl, rfl, ?_⟩
            by_cases hk : u.fault.kind = .none
            · exact .inr ⟨hk, by simpa [hk] using h.symm⟩
            · exact .inl ⟨hk, by simpa [hk] using h.symm⟩
          | fault r => simp [he, finishCycle] at h
          | refused r => simp [he, finishCycle] at h

/-- A running cycle at a fetchable PC whose word decodes is the handler and what follows it. -/
theorem cycle_run {rnd : Byte} {s : State} {i : Instr} (hr : s.Running) (hf : s.fetchFault = none)
    (hd : decode s.wordAtPc = .ok i) : cycle rnd s = finishCycle s (exec i (s.enterHandler rnd)) := by
  simp [cycle, hr.1, hr.2, hf, runWord, hd]

/-- A halted or a waiting core does nothing in a cycle. -/
theorem cycle_idle {rnd : Byte} {s : State} (h : s.fault.kind ≠ .none ∨ s.waiting = true) : cycle rnd s = .next s := by
  unfold cycle
  split
  · rfl
  · next hf => rcases h with h | h
               · exact absurd h hf
               · simp [h]

/-- A fetch raises no fault exactly at a fetchable PC. -/
theorem fetchFault_none {s : State} : s.fetchFault = none ↔ s.Fetchable := by
  unfold State.fetchFault State.Fetchable
  split
  · next h => simp [h.1, h.2]
  · next h =>
    rw [boundsFault_none]
    have : s.pc.toNat % 2 = 0 ∨ s.pc.toNat % 2 = 1 := by omega
    constructor
    · intro hb
      exact ⟨fun hp => by rcases this with h0 | h1
                          · exact h0
                          · exact absurd ⟨hp, h1⟩ h, by omega⟩
    · intro hb; exact .inl (by omega)

/-- A step with nothing queued is a cycle with the next free random byte. -/
theorem step_nil {s : State} (h : s.host = []) : step s = cycle (Config.randomByte s.rndIndex) s := by
  simp [step, nextTransaction, h]

/-- A step with a queued transaction performs it. -/
theorem step_cons {s : State} {e : HostEvent} {rest : List HostEvent} (h : s.host = e :: rest) :
    step s = transaction e { s with host := rest } := by
  simp [step, nextTransaction, h]

/-- A step that answers `t` was a cycle, an accepted RESET, or one of the three other transactions of the host. -/
theorem step_cases {s t : State} (h : step s = .next t) :
    (∃ rnd s0, (s0 = s ∨ ∃ rest, s0 = { s with host := rest }) ∧ cycle rnd s0 = .next t) ∨
    ∃ e rest, s.host = e :: rest ∧
      ((∃ image, e = .reset image ∧ imageFits s.cfg image = true ∧ t = ({ s with host := rest } : State).resetWith image) ∨
       (∃ k p, e = .keyUpdate k p ∧ t = ({ s with host := rest } : State).keyUpdate k p) ∨
       (∃ k, e = .deliverKey k ∧ t = ({ s with host := rest } : State).deliverKey k) ∨
       (e = .ackRedraw ∧ t = ({ s with host := rest } : State).ackRedraw)) := by
  cases hh : s.host with
  | nil => exact .inl ⟨_, s, .inl rfl, by rw [← step_nil hh]; exact h⟩
  | cons e rest =>
    rw [step_cons hh] at h
    cases e with
    | cycle rnd => exact .inl ⟨rnd, { s with host := rest }, .inr ⟨rest, rfl⟩, h⟩
    | reset image =>
      refine .inr ⟨_, _, rfl, .inl ⟨image, rfl, ?_⟩⟩
      simp only [transaction, hostReset] at h
      split at h
      · next hf => exact ⟨hf, by simpa using h.symm⟩
      · simp at h
    | keyUpdate k p => exact .inr ⟨_, _, rfl, .inr (.inl ⟨k, p, rfl, by simpa [transaction] using h.symm⟩)⟩
    | deliverKey k => exact .inr ⟨_, _, rfl, .inr (.inr (.inl ⟨k, rfl, by simpa [transaction] using h.symm⟩))⟩
    | ackRedraw => exact .inr ⟨_, _, rfl, .inr (.inr (.inr ⟨rfl, by simpa [transaction] using h.symm⟩))⟩

end Sys2Proof.Machine
end

