-- ==== Sys2Proof/Tests/Slice0.lean ====
section
/-! SUPPORT. The tests of the model. Expected results come from spec/: the vectors of 95_test_vectors.md (their number stands
in each comment) and the encodings of 30_encoding.md R74. After them, one witness per statement that has hypotheses. -/

namespace Sys2Proof.Tests

open Sys2Proof Sys2Proof.Machine

/-! ## WellFormed: one ill-formed term per check -/

theorem smoke_unknown_name : (Written.mk "nop" []).check = .error .unknownName := by decide
theorem smoke_alias_unknown : (Written.mk "CLS" []).check = .error .unknownName := by decide
theorem smoke_no_operand_missing : (Written.mk "return" [1]).check = .error .operandCount := by decide
theorem smoke_nnn_count : (Written.mk "jump" []).check = .error .operandCount := by decide
theorem smoke_nnn_range : (Written.mk "call" [4096]).check = .error .operandRange := by decide
theorem smoke_xkk_count : (Written.mk "load-imm" [1]).check = .error .operandCount := by decide
theorem smoke_xkk_kk_range : (Written.mk "load-imm" [1, 256]).check = .error .operandRange := by decide
theorem smoke_xkk_x_range : (Written.mk "rand" [16, 0]).check = .error .operandRange := by decide
theorem smoke_xy_count : (Written.mk "or" [1]).check = .error .operandCount := by decide
theorem smoke_xy_y_range : (Written.mk "sub" [1, 16]).check = .error .operandRange := by decide
theorem smoke_x_count : (Written.mk "wait-key" [1, 2]).check = .error .operandCount := by decide
theorem smoke_shift_count : (Written.mk "shr" [1, 2, 3]).check = .error .operandCount := by decide
theorem smoke_shift_y_range : (Written.mk "shl" [1, 16]).check = .error .operandRange := by decide
theorem smoke_x_range : (Written.mk "wait-key" [16]).check = .error .operandRange := by decide
theorem smoke_draw_count : (Written.mk "draw" [1, 2]).check = .error .operandCount := by decide
theorem smoke_draw_n_range : (Written.mk "draw" [1, 2, 16]).check = .error .operandRange := by decide
theorem smoke_accepts : (Written.mk "draw" [15, 14, 13]).check = .ok (.draw 15 14 13) := by decide

/-! ## Decoding: a word of R74 for every constructor, its bits written out -/

theorem decode_system : decode 0b0000000011100000 = .ok .clearScreen ∧ decode 0b0000000011101110 = .ok .ret := by decide
theorem decode_addr :
    decode 0b0001101010111100 = .ok (.jump 0xABC) ∧ decode 0b0010111111111110 = .ok (.call 0xFFE) ∧
    decode 0b1010001011110000 = .ok (.loadIndex 0x2F0) ∧ decode 0b1011000100100011 = .ok (.jumpOffset 0x123) := by decide
theorem decode_imm :
    decode 0b0011001100010000 = .ok (.skipEqImm 3 0x10) ∧ decode 0b0100111110000001 = .ok (.skipNeqImm 15 0x81) ∧
    decode 0b0110101000101111 = .ok (.loadImm 10 0x2F) ∧ decode 0b0111000111111111 = .ok (.addImm 1 0xFF) ∧
    decode 0b1100001100001111 = .ok (.rand 3 0x0F) := by decide
theorem decode_reg_skip :
    decode 0b0101000100100000 = .ok (.skipEqReg 1 2) ∧ decode 0b1001101001010000 = .ok (.skipNeqReg 10 5) := by decide
theorem decode_alu :
    decode 0b1000000100100000 = .ok (.loadReg 1 2) ∧ decode 0b1000000100100001 = .ok (.orReg 1 2) ∧
    decode 0b1000000100100010 = .ok (.andReg 1 2) ∧ decode 0b1000000100100011 = .ok (.xorReg 1 2) ∧
    decode 0b1000000100100100 = .ok (.addReg 1 2) ∧ decode 0b1000000100100101 = .ok (.sub 1 2) ∧
    decode 0b1000000100100110 = .ok (.shr 1) ∧ decode 0b1000000100100111 = .ok (.subn 1 2) ∧
    decode 0b1000000100101110 = .ok (.shl 1) := by decide
theorem decode_draw : decode 0b1101001001001011 = .ok (.draw 2 4 11) := by decide
theorem decode_key :
    decode 0b1110000110011110 = .ok (.skipKeyPressed 1) ∧ decode 0b1110111110100001 = .ok (.skipKeyNotPressed 15) := by decide
theorem decode_misc :
    decode 0b1111000100000111 = .ok (.loadDelay 1) ∧ decode 0b1111001000001010 = .ok (.waitKey 2) ∧
    decode 0b1111001100010101 = .ok (.setDelay 3) ∧ decode 0b1111010000011000 = .ok (.setSound 4) ∧
    decode 0b1111010100011110 = .ok (.addIndex 5) ∧ decode 0b1111011000101001 = .ok (.loadFontAddr 6) ∧
    decode 0b1111011100110011 = .ok (.storeBcd 7) ∧ decode 0b1111100001010101 = .ok (.storeRegs 8) ∧
    decode 0b1111100101100101 = .ok (.loadRegs 9) := by decide
/-- R81: `y` = 0 unless the source text gives one (words of A-14, L1.5 and 95_test_vectors.md section 2.1). -/
theorem encode_shift_y : (Written.mk "shr" [4, 5]).encode = .ok 0x8456 ∧ (Written.mk "shr" [4]).encode = .ok 0x8406 ∧
    (Written.mk "shl" [1, 2]).encode = .ok 0x812E ∧ (Written.mk "jump" [0x228]).encode = .ok 0x1228 := by decide
/-- The failures of the decode vectors of 95_test_vectors.md section 2.1. -/
theorem decode_failures :
    [0x0000#16, 0x00E1, 0x00EF, 0x0123, 0x5121, 0x912F, 0x8008, 0x800F, 0xE19F, 0xE000, 0xF000, 0xF166, 0xFFFF].map decode =
      [0x0000#16, 0x00E1, 0x00EF, 0x0123, 0x5121, 0x912F, 0x8008, 0x800F, 0xE19F, 0xE000, 0xF000, 0xF166, 0xFFFF].map
        fun w => .error (.decodeFailure w) := by decide
theorem decode_table_word : decodeTableWord 16 0x6A2F = some (.loadImm 10 0x2F) ∧ decodeTableWord 16 0xFFFF = none := by decide

/-! ## One step: the vectors of 95_test_vectors.md -/

/-- The reset state with some registers set, and a word at PC. -/
def testState (regs : List (Reg × Byte)) (w : Nat) : State :=
  (regs.foldl (fun s r => s.setV r.1 r.2) State.reset).withFetchWord 16 w

/-- The same with I set and bytes stored at I. -/
def testStateAt (regs : List (Reg × Byte)) (i : Word) (bytes : List Byte) (w : Nat) : State :=
  { (testState regs w).storeBytes i.toNat bytes with i := i }

/-- What one step leaves, as far as `f` shows it; none when it has no next state. -/
def after {α : Type} (s : State) (f : State → α) : Option α :=
  match step s with
  | .next t => some (f t)
  | .fault _ | .refused _ => none

/-- A state under another `VF_MODE`. -/
def inMode (m : VfMode) (s : State) : State := s.withMode m

/-- L1.1: the high byte comes first. -/
theorem test_fetch_order : after { State.reset with mem := [(0x200, 0x12), (0x201, 0x34)] } (·.pc) = some 0x234 := by decide
/-- C-1. -/
theorem test_misaligned_fetch : after { State.reset with pc := 0x201 } (fun t => (t.fault, t.pc)) =
    some (⟨.misalignedFetch, 0x201, 0x201⟩, 0x201) := by decide
/-- C-2. -/
theorem test_fetch_policy : after { State.reset with
      cfg := { defaultConfig with fetchAlign := .fetch }, pc := 0x201, mem := [(0x201, 0x61), (0x202, 0x07)] }
    (fun t => (t.V 1, t.pc)) = some (0x07, 0x203) := by decide
/-- C-4. -/
theorem test_fetch_bounds : after { State.reset with pc := 0x1000 } (·.fault) =
    some ⟨.memOutOfBounds, 0x1000, 0x1000⟩ := by decide
/-- C-6. -/
theorem test_fetch_second_byte : after { State.reset with cfg := { defaultConfig with fetchAlign := .fetch }, pc := 0xFFF }
    (·.fault) = some ⟨.memOutOfBounds, 0x1000, 0xFFF⟩ := by decide
/-- C-7. -/
theorem test_decode_failure : after { testState [] 0xFFFF with dt := 5 } (fun t => (t.fault, t.dt, t.pc)) =
    some (⟨.decodeFailure, 0xFFFF, 0x200⟩, 5, 0x200) := by decide
/-- C-8. -/
theorem test_halted : let s := { State.reset with fault := ⟨.decodeFailure, 0xFFFF, 0x200⟩, dt := 5 }
    step s = .next s ∧ cycleStatus s s = .faulted s.fault := ⟨rfl, rfl⟩
/-- L1.14. -/
theorem test_waiting : let s := { State.reset with waiting := true, dt := 5, st := 5 }
    step s = .next s ∧ cycleStatus s s = .waiting := ⟨rfl, rfl⟩
/-- L1.13, from DT = 1 and from DT = 0. -/
theorem test_timer_floor : after { testState [] 0x6000 with dt := 1 } (·.dt) = some 0 ∧
    after { testState [] 0x6000 with dt := 0 } (·.dt) = some 0 := by decide
/-- K-13, cycles 1 and 3. -/
theorem test_timer_div : let s := { testState [] 0x6000 with cfg := { defaultConfig with timerDiv := 3 }, dt := 3 }
    after s (fun t => (t.tick, t.dt)) = some (1, 3) ∧ after { s with tick := 2 } (fun t => (t.tick, t.dt)) = some (0, 2) := by
  decide

/-- D-11. -/
theorem test_clear_screen : after { testState [(15, 9)] 0x00E0 with pix := Display.invert (blankDisplay defaultConfig) 5 7 }
    (fun t => (t.pix.pixel 5 7, t.dirty, t.V 15)) = some (false, true, 9) := by decide
/-- D-3, rows wrap; L1.8, columns wrap. -/
theorem test_draw_wraps :
    after (testStateAt [(0, 0), (1, 31)] 0x300 [0x80, 0x80] 0xD012) (fun t => (t.pix.pixel 31 0, t.pix.pixel 0 0, t.V 15)) =
      some (true, true, 0) ∧
    after (testStateAt [(0, 63)] 0x300 [0xFF] 0xD011)
      (fun t => (t.pix.pixel 0 63, (List.range 8).map (t.pix.pixel 0))) =
      some (true, [true, true, true, true, true, true, true, false]) := by decide
/-- D-5, collision; M-10, the coordinate VF in `sequential` and in the default mode. -/
theorem test_draw_flag :
    after { testStateAt [] 0x300 [0xC0] 0xD011 with pix := Display.invert (blankDisplay defaultConfig) 0 0 }
      (fun t => (t.pix.pixel 0 0, t.pix.pixel 0 1, t.V 15)) = some (false, true, 1) ∧
    after (testStateAt [(15, 5)] 0x300 [0x80] 0xDF11) (fun t => (t.pix.pixel 0 5, t.V 15)) = some (true, 0) ∧
    after (inMode .sequential (testStateAt [(15, 5)] 0x300 [0x80] 0xDF11)) (fun t => (t.pix.pixel 0 0, t.V 15)) =
      some (true, 0) := by decide

/-- F-6. -/
theorem test_return : after { testState [] 0x00EE with sp := 2, stack := [0x204, 0x31A] ++ List.replicate 14 0 }
    (fun t => (t.pc, t.sp, t.stackAt 2)) = some (0x31A, 1, 0x31A) := by decide
/-- F-5. -/
theorem test_return_underflow : after (testState [] 0x00EE) (·.fault) = some ⟨.stackUnderflow, 0, 0x200⟩ := by decide
/-- F-1. -/
theorem test_jump : after (testState [] 0x1228) (·.pc) = some 0x228 := by decide
/-- L1.11, cycle 1. -/
theorem test_call : after (testState [] 0x2300) (fun t => (t.pc, t.sp, t.stackAt 1)) = some (0x300, 1, 0x202) := by decide
/-- F-4. -/
theorem test_call_overflow : after { testState [] 0x2300 with sp := 16 } (fun t => (t.fault, t.sp, t.pc)) =
    some (⟨.stackOverflow, 16, 0x200⟩, 16, 0x200) := by decide
/-- F-9, F-10. -/
theorem test_skip_eq_imm : after (testState [(3, 0x10)] 0x3310) (·.pc) = some 0x204 ∧
    after (testState [(3, 0x11)] 0x3310) (·.pc) = some 0x202 := by decide
/-- F-11. -/
theorem test_skip_neq_imm : after (testState [(3, 0x11)] 0x4310) (·.pc) = some 0x204 := by decide
/-- F-12. -/
theorem test_skip_eq_reg : after (testState [(1, 7), (2, 7)] 0x5120) (·.pc) = some 0x204 := by decide
/-- F-14, F-15. -/
theorem test_skip_neq_reg : after (testState [(1, 7), (2, 8)] 0x9120) (·.pc) = some 0x204 ∧
    after (testState [(1, 7)] 0x9110) (·.pc) = some 0x202 := by decide
/-- F-19, F-21. -/
theorem test_jump_offset : after (testState [(0, 0xFF)] 0xBFFF) (·.pc) = some 0x10FE ∧
    after (testState [(3, 4)] 0xB300) (·.pc) = some 0x300 := by decide

/-- A-2. -/
theorem test_load_imm : after (testState [] 0x6F33) (·.V 15) = some 0x33 := by decide
/-- A-3. -/
theorem test_add_imm : after (testState [(0, 0xFF), (15, 0x55)] 0x7001) (fun t => (t.V 0, t.V 15)) = some (0, 0x55) := by decide
/-- A-6. -/
theorem test_load_reg : after (testState [(2, 9)] 0x8120) (·.V 1) = some 9 := by decide
/-- A-7. -/
theorem test_or : after (testState [(1, 0x0C), (2, 0x0A), (15, 0x77)] 0x8121) (fun t => (t.V 1, t.V 15)) =
    some (0x0E, 0x77) := by decide
/-- A-8. -/
theorem test_and : after (testState [(1, 0x0C), (2, 0x0A), (15, 0x77)] 0x8122) (fun t => (t.V 1, t.V 15)) =
    some (0x08, 0x77) := by decide
/-- A-9. -/
theorem test_xor : after (testState [(1, 0x0C), (2, 0x0A), (15, 0x77)] 0x8123) (fun t => (t.V 1, t.V 15)) =
    some (0x06, 0x77) := by decide
/-- L1.3, three rows. -/
theorem test_add_reg :
    after (testState [(1, 0xF0), (2, 0x20)] 0x8124) (fun t => (t.V 1, t.V 15)) = some (0x10, 1) ∧
    after (testState [(1, 0x80), (2, 0x7F)] 0x8124) (fun t => (t.V 1, t.V 15)) = some (0xFF, 0) ∧
    after (testState [(1, 0xFF), (2, 0x01)] 0x8124) (fun t => (t.V 1, t.V 15)) = some (0, 1) := by decide
/-- M-1. -/
theorem test_add_reg_vf : let s := testState [(15, 0xF0), (1, 0x20)] 0x8F14
    after s (·.V 15) = some 0x10 ∧ after (inMode .latchedFlagLast s) (·.V 15) = some 1 ∧
    after (inMode .sequential s) (·.V 15) = some 0x10 := by decide
/-- L1.4, three rows. -/
theorem test_sub :
    after (testState [(1, 5), (2, 3)] 0x8125) (fun t => (t.V 1, t.V 15)) = some (2, 1) ∧
    after (testState [(1, 3), (2, 5)] 0x8125) (fun t => (t.V 1, t.V 15)) = some (0xFE, 0) ∧
    after (testState [(1, 4), (2, 4)] 0x8125) (fun t => (t.V 1, t.V 15)) = some (0, 0) := by decide
/-- M-3. -/
theorem test_sub_vf : let s := testState [(15, 5), (1, 3)] 0x8F15
    after s (·.V 15) = some 0x02 ∧ after (inMode .latchedFlagLast s) (·.V 15) = some 1 ∧
    after (inMode .sequential s) (·.V 15) = some 0xFE := by decide
/-- A-14, L1.5. -/
theorem test_shr : after (testState [(4, 4), (5, 0xFF)] 0x8456) (fun t => (t.V 4, t.V 5, t.V 15)) = some (2, 0xFF, 0) ∧
    after (testState [(4, 0xFF)] 0x8406) (fun t => (t.V 4, t.V 15)) = some (0x7F, 1) := by decide
/-- M-5. -/
theorem test_shr_vf : let s := testState [(15, 5)] 0x8F06
    after s (·.V 15) = some 0x02 ∧ after (inMode .latchedFlagLast s) (·.V 15) = some 1 ∧
    after (inMode .sequential s) (·.V 15) = some 0 := by decide
/-- A-11, A-12, A-13. -/
theorem test_subn :
    after (testState [(1, 3), (2, 5)] 0x8127) (fun t => (t.V 1, t.V 15)) = some (2, 1) ∧
    after (testState [(1, 5), (2, 3)] 0x8127) (fun t => (t.V 1, t.V 15)) = some (0xFE, 0) ∧
    after (testState [(1, 4), (2, 4)] 0x8127) (fun t => (t.V 1, t.V 15)) = some (0, 0) := by decide
/-- M-7. -/
theorem test_subn_vf : let s := testState [(15, 3), (1, 5)] 0x8F17
    after s (·.V 15) = some 0x02 ∧ after (inMode .latchedFlagLast s) (·.V 15) = some 1 ∧
    after (inMode .sequential s) (·.V 15) = some 0x04 := by decide
/-- A-15, L1.6. -/
theorem test_shl : after (testState [(4, 1), (5, 0x80)] 0x845E) (fun t => (t.V 4, t.V 5, t.V 15)) = some (2, 0x80, 0) ∧
    after (testState [(4, 0x81)] 0x840E) (fun t => (t.V 4, t.V 15)) = some (2, 1) := by decide
/-- M-6. -/
theorem test_shl_vf : let s := testState [(15, 0xC1)] 0x8F0E
    after s (·.V 15) = some 0x82 ∧ after (inMode .latchedFlagLast s) (·.V 15) = some 1 ∧
    after (inMode .sequential s) (·.V 15) = some 0x02 := by decide
/-- A-16. -/
theorem test_rand : after { testState [] 0xC30F with host := [.cycle 0xA7] } (·.V 3) = some 0x07 := by decide

/-- X-1. -/
theorem test_load_index : after (testState [] 0xA2F0) (·.i) = some 0x2F0 := by decide
/-- X-2, X-3. -/
theorem test_add_index : after (testStateAt [(5, 0x10), (15, 0x44)] 0x300 [] 0xF51E) (fun t => (t.i, t.V 15)) =
      some (0x310, 0x44) ∧
    after (testStateAt [(1, 1)] 0xFFFF [] 0xF11E) (·.i) = some 0 := by decide
/-- X-6. -/
theorem test_load_font_addr : let s := testState [(2, 0x1A)] 0xF229
    after s (·.i) = some 0x01A ∧ after { s with cfg := { defaultConfig with fontStride := 5 } } (·.i) = some 0x082 := by decide
/-- X-10; L1.9. -/
theorem test_store_bcd :
    after (testStateAt [(0, 137)] 0x300 [] 0xF033) (fun t => ((List.range' 0x300 3).map t.readByte, t.i)) =
      some ([1, 3, 7], 0x300) ∧
    after (testStateAt [(0, 255)] 0x300 [] 0xF033) (fun t => (List.range' 0x300 3).map t.readByte) = some [2, 5, 5] := by decide
/-- X-12, X-13, X-14. -/
theorem test_store_bcd_faults :
    after (testStateAt [(0, 255)] 0xFFE [] 0xF033) (fun t => (t.fault, t.readByte 0xFFE)) =
      some (⟨.memOutOfBounds, 0x1000, 0x200⟩, 0) ∧
    after (testStateAt [(0, 255)] 0x04E [] 0xF033) (fun t => (t.fault, t.readByte 0x50)) =
      some (⟨.fontRegionWrite, 0x04E, 0x200⟩, 0) ∧
    after { testStateAt [(0, 255)] 0x04E [] 0xF033 with cfg := { defaultConfig with fontWrite := .write } }
      (fun t => (List.range' 0x4E 3).map t.readByte) = some [2, 5, 5] := by decide
/-- X-15, X-19. -/
theorem test_store_regs :
    after (testStateAt [(0, 1), (1, 2), (2, 3)] 0x300 [] 0xF255) (fun t => ((List.range' 0x300 4).map t.readByte, t.i)) =
      some ([1, 2, 3, 0], 0x300) ∧
    after (testStateAt [(0, 9)] 0x050 [] 0xF055) (·.readByte 0x50) = some 9 := by decide
/-- X-17, X-18. -/
theorem test_store_regs_faults :
    after (testStateAt [] 0xFF1 [] 0xFF55) (·.fault) = some ⟨.memOutOfBounds, 0x1000, 0x200⟩ ∧
    after (testStateAt [] 0x04F [] 0xF055) (·.fault) = some ⟨.fontRegionWrite, 0x04F, 0x200⟩ := by decide
/-- X-20, X-23. -/
theorem test_load_regs :
    after (testStateAt [] 0 [] 0xF465) (fun t => t.v.toList.take 5) = some [0xF0, 0x90, 0x90, 0x90, 0xF0] ∧
    after (testStateAt [(3, 0x99)] 0x300 [1, 2, 3] 0xF265) (fun t => t.v.toList.take 4) = some [1, 2, 3, 0x99] := by decide
/-- X-22. -/
theorem test_load_regs_fault : after (testStateAt [(0, 5)] 0xFFFF [] 0xF065) (fun t => (t.fault, t.V 0)) =
    some (⟨.memOutOfBounds, 0xFFFF, 0x200⟩, 5) := by decide

/-- K-1, K-2. -/
theorem test_skip_key_pressed : after ((testState [(1, 5)] 0xE19E).keyUpdate 5 true) (·.pc) = some 0x204 ∧
    after (testState [(1, 5)] 0xE19E) (·.pc) = some 0x202 := by decide
/-- K-4, K-5. -/
theorem test_key_index : let s := (testState [(1, 0x10)] 0xE19E).keyUpdate 0 true
    after s (·.fault) = some ⟨.keyIndexRange, 0x10, 0x200⟩ ∧
    after { s with cfg := { defaultConfig with keyIndex := .mask } } (·.pc) = some 0x204 := by decide
/-- K-3, K-6. -/
theorem test_skip_key_not_pressed : after (testState [(1, 5)] 0xE1A1) (·.pc) = some 0x204 ∧
    after { testState [(1, 0x10)] 0xE1A1 with cfg := { defaultConfig with keyIndex := .notPressed } } (·.pc) = some 0x204 := by
  decide
/-- K-7. -/
theorem test_load_delay : after { testState [] 0xF507 with dt := 9 } (fun t => (t.V 5, t.dt)) = some (9, 8) := by decide
/-- K-15; L1.12, cycle 1. -/
theorem test_wait_key : after { testState [] 0xFF0A with dt := 2 } (fun t => (t.waiting, t.waitTarget, t.pc, t.dt)) =
    some (true, 15, 0x202, 1) := by decide
/-- K-9. -/
theorem test_set_delay : after (testState [(2, 5)] 0xF215) (·.dt) = some 4 := by decide
/-- K-11, K-12. -/
theorem test_set_sound : after (testState [(2, 3)] 0xF218) (fun t => (t.st, t.soundActive)) = some (2, true) ∧
    after (testState [(2, 1)] 0xF218) (fun t => (t.st, t.soundActive)) = some (0, false) := by decide

/-- K-15, the second transaction. -/
theorem test_deliver_key : after { State.reset with waiting := true, waitTarget := 15, host := [.deliverKey 7] }
    (fun t => (t.V 15, t.waiting)) = some (7, false) := by decide
/-- C-9, C-15. -/
theorem test_deliver_key_no_effect :
    step { State.reset with host := [.deliverKey 5] } = .next State.reset ∧
    after { State.reset with fault := ⟨.decodeFailure, 0xFFFF, 0x200⟩, waiting := true, host := [.deliverKey 3] }
      (fun t => (t.V 0, t.waiting)) = some (0, true) := ⟨rfl, by decide⟩
/-- C-10, K-16. -/
theorem test_key_update : after { State.reset with fault := ⟨.decodeFailure, 0xFFFF, 0x200⟩, host := [.keyUpdate 3 true] }
    (fun t => (t.isPressed 3, t.fault.kind)) = some (true, .decodeFailure) := by decide
/-- C-14. -/
theorem test_ack_redraw : step { State.reset with dirty := true, host := [.ackRedraw] } = .next State.reset := rfl
/-- C-11, with the image of L1.11's first word. -/
theorem test_reset : after { State.reset with
      fault := ⟨.decodeFailure, 0xFFFF, 0x200⟩, dt := 5, waiting := true, host := [.reset [0x23, 0x00]] }
    (fun t => (t.readByte 0x200, t.pc, t.dt, t.waiting, t.fault)) = some (0x23, 0x200, 0, false, ⟨.none, 0, 0⟩) := by decide
/-- The table of spec/60_exceptions.md R230. -/
theorem test_fault_codes : [FaultKind.none, .decodeFailure, .memOutOfBounds, .stackOverflow, .stackUnderflow, .misalignedFetch,
    .keyIndexRange, .fontRegionWrite].map FaultKind.code = [0, 1, 2, 3, 4, 5, 6, 7] := by decide
/-- C-13, under a `MEM_SIZE` that leaves room for two bytes: three do not fit, two do (R61). -/
theorem test_reset_refused : let c := { defaultConfig with memSize := 0x202 }
    step { State.resetOf c with host := [.reset [1, 2, 3]] } = .refused .imageTooLarge ∧
    after { State.resetOf c with host := [.reset [1, 2]] } (·.readByte 0x201) = some 2 := ⟨rfl, by decide⟩

/-! ## Witnesses: a state and operands that meet the hypotheses of each statement, each clause at a boundary value -/

/-- A state that fetches the word `w` at 0x200 keeps the invariant, whatever the registers. -/
theorem testState_inv : (testState [(0, 7), (1, 63)] 0xD01F).Inv :=
  ⟨by decide, by decide, by decide, by decide, by decide, by decide, by decide, by decide⟩

theorem witness_EncodedInstructionDecodesToItself : (Instr.draw 15 0 15).WellFormed := by decide

theorem witness_DecodedWordEncodesBack : decode 0x812E = .ok (.shl 1) ∧ encode (.shl 1) = 0x812E &&& 0xFF0F#16 := by decide

/-- Both clauses: nothing queued, and a queued CYCLE. -/
theorem witness_StepRunsTheDecodedInstruction :
    (let s := testState [(1, 0xFF)] 0x7101
     s.Running ∧ s.Fetchable ∧ decode s.wordAtPc = .ok (.addImm 1 1) ∧ s.host = [] ∧
       ∃ t, exec (.addImm 1 1) { s with pc := s.pc + 2, rnd := Config.randomByte s.rndIndex, rndIndex := s.rndIndex + 1 } =
         .next t) ∧
    (let s := { testState [] 0xC30F with host := [.cycle 0xFF] }
     s.Running ∧ s.Fetchable ∧ decode s.wordAtPc = .ok (.rand 3 0x0F) ∧ s.host = .cycle 0xFF :: [] ∧
       ∃ t, exec (.rand 3 0x0F) { s with pc := s.pc + 2, rnd := 0xFF, rndIndex := s.rndIndex + 1, host := [] } = .next t) :=
  ⟨⟨⟨rfl, rfl⟩, ⟨by decide, by decide⟩, by decide, rfl, _, rfl⟩,
   ⟨⟨rfl, rfl⟩, ⟨by decide, by decide⟩, by decide, rfl, _, rfl⟩⟩

/-- PC at the last word of memory. -/
theorem witness_PlacedWordIsFetchedNext : let s := { State.reset with pc := 0xFFE }
    s.Inv ∧ s.Fetchable :=
  ⟨⟨by decide, by decide, by decide, by decide, by decide, by decide, by decide, by decide⟩, by decide, by decide⟩

/-- Each clause: an odd PC; PC at `MEM_SIZE`; PC at the last byte under the other policy; a word that decodes to nothing at
the last address that holds a whole word. -/
theorem witness_FetchReadsHighByteFirstAndFaultsInOrder :
    (let s := { State.reset with pc := 0xFFF }
     s.Running ∧ s.host = [] ∧ s.cfg.fetchAlign = .fault ∧ s.pc.toNat % 2 = 1) ∧
    (let s := { State.reset with pc := 0x1000 }
     s.Running ∧ s.host = [] ∧ ¬(s.cfg.fetchAlign = .fault ∧ s.pc.toNat % 2 = 1) ∧ s.cfg.memSize ≤ s.pc.toNat) ∧
    (let s := { State.reset with cfg := { defaultConfig with fetchAlign := .fetch }, pc := 0xFFF }
     s.Running ∧ s.host = [] ∧ ¬(s.cfg.fetchAlign = .fault ∧ s.pc.toNat % 2 = 1) ∧ s.pc.toNat < s.cfg.memSize ∧
       s.cfg.memSize ≤ s.pc.toNat + 1) ∧
    (let s := { State.reset with pc := 0xFFE }
     s.Running ∧ s.host = [] ∧ ¬(s.cfg.fetchAlign = .fault ∧ s.pc.toNat % 2 = 1) ∧ s.pc.toNat + 1 < s.cfg.memSize ∧
       decode s.wordAtPc = .error (.decodeFailure 0)) :=
  ⟨⟨⟨rfl, rfl⟩, rfl, rfl, by decide⟩, ⟨⟨rfl, rfl⟩, rfl, by decide, by decide⟩,
   ⟨⟨rfl, rfl⟩, rfl, by decide, by decide, by decide⟩, ⟨⟨rfl, rfl⟩, rfl, by decide, by decide, by decide⟩⟩

theorem witness_WaitingCycleChangesNothing : let s := { State.reset with waiting := true }
    s.waiting = true ∧ s.fault.kind = .none ∧ s.host = [] := ⟨rfl, rfl, rfl⟩

theorem witness_FaultedCycleChangesNothing : let s := { State.reset with fault := ⟨.stackOverflow, 16, 0x200⟩ }
    s.fault.kind ≠ .none ∧ s.host = [] := by decide

theorem witness_FaultsArePrecise : let s := testState [(0, 255)] 0x00EE
    s.Running ∧ ∃ t, cycle 0 s = .next t ∧ t.fault.kind ≠ .none := ⟨⟨rfl, rfl⟩, _, rfl, by decide⟩

theorem witness_StepKeepsInv : (testState [(0, 7), (1, 63)] 0xD01F).Inv ∧ ∃ t, step (testState [(0, 7), (1, 63)] 0xD01F) = .next t :=
  ⟨testState_inv, _, rfl⟩

theorem witness_ResetMeetsInv :
    { defaultConfig with memSize := 65536, fontStride := 5, timerDiv := 10, displayW := 8, displayH := 1 }.wf = true := by decide

/-- A store just above the font region runs. -/
theorem witness_FontTableStaysIntact : let s := { testState [(0, 255)] 0xF033 with i := 0x50 }
    s.Inv ∧ s.cfg.fontWrite = .fault ∧ s.FontIntact ∧ ∃ t, step s = .next t ∧ t.readByte 0x50 = 2 := by
  refine ⟨⟨by decide, by decide, by decide, by decide, by decide, by decide, by decide, by decide⟩, rfl, ?_, _, rfl, by decide⟩
  intro a ha
  have h : a < 80 := by
    simp only [Config.inFont, Bool.and_eq_true, decide_eq_true_eq] at ha
    exact ha.2
  have hm : ∀ a < 80, State.readByte { testState [(0, 255)] 0xF033 with i := 0x50 } a = defaultConfig.fontData.getD a 0 := by
    decide
  exact hm a h

theorem witness_UnwrittenRegistersKeepTheirValues : (∃ t, exec (.loadRegs 14) State.reset = .next t) ∧
    regsWritten (.loadRegs 14) 15 = false := ⟨⟨_, rfl⟩, by decide⟩

theorem witness_UnstoredBytesKeepTheirValues : let s := testStateAt [(0, 137)] 0xFFD [] 0xF033
    Memory.wf s.cfg s.mem = true ∧ (∃ t, exec (.storeBcd 0) s = .next t) ∧ storedLength .clearScreen = 0 ∧
    ¬ (s.effAddr 0 ≤ 0xFFC ∧ 0xFFC < s.effAddr 0 + storedLength (.storeBcd 0)) := ⟨by decide, ⟨_, rfl⟩, rfl, by decide⟩

theorem witness_SpecialRegistersChangeOnlyWhereNamed : ∃ t, exec (.call 0x300) State.reset = .next t := ⟨_, rfl⟩

theorem witness_PcMovesOnlyByControlTransfer : State.reset.fault.kind = .none ∧
    ∃ t, exec (.skipEqImm 0 0) State.reset = .next t ∧ t.fault.kind = .none := ⟨rfl, _, rfl, rfl⟩

theorem witness_OnlyRandReadsTheRandomInput : ∃ t, exec (.draw 0 1 5) State.reset = .next t := ⟨_, rfl⟩

/-- Coordinates past the last row and column. -/
theorem witness_SpriteRowIsXored : defaultConfig.wf = true ∧ Display.sized defaultConfig (blankDisplay defaultConfig) = true := by
  decide

/-- The last 15 bytes of memory, and n = 0 with I above memory. -/
theorem witness_DrawXorsTheSprite : let s := { testState [(0, 7), (1, 63)] 0xD01F with i := 0xFF1 }
    s.Inv ∧ s.cfg.vfMode ≠ .sequential ∧ (15 : RowCount).val ≤ s.cfg.displayH ∧
    s.i.toNat + (15 : RowCount).val = s.cfg.memSize :=
  ⟨⟨by decide, by decide, by decide, by decide, by decide, by decide, by decide, by decide⟩, by decide, by decide, by decide⟩

/-- Each clause: the last byte of memory, one past it, and one row in `sequential`. -/
theorem witness_DrawCompletesOrFaults :
    (let s := { State.reset with i := 0xFFF }
     s.i.toNat + (1 : RowCount).val ≤ s.cfg.memSize) ∧
    (let s := { State.reset with i := 0xFFF }
     (2 : RowCount) ≠ 0 ∧ s.cfg.memSize < s.i.toNat + (2 : RowCount).val) ∧
    (let s := { State.reset with i := 0xFFF }.withMode .sequential
     s.cfg.vfMode = .sequential ∧ s.i.toNat < s.cfg.memSize) := by decide

theorem witness_DrawTwiceRestoresThePixels : let s := testState [(0, 7), (1, 63)] 0xD01F
    s.Inv ∧ (0 : Reg) ≠ VF ∧ (1 : Reg) ≠ VF ∧ s.i.toNat + (15 : RowCount).val ≤ s.cfg.memSize ∧
    (15 : RowCount).val ≤ s.cfg.displayH ∧
    ∃ t u, exec (.draw 0 1 15) s = .next t ∧ exec (.draw 0 1 15) t = .next u :=
  ⟨testState_inv, by decide, by decide, by decide, by decide, _, _, rfl, rfl⟩

/-- Each clause: an odd target, and a target at the last byte of memory. -/
theorem witness_JumpsSetPc : ∃ t, exec (.jump 0xFFF) State.reset = .next t ∧ t.cfg.fetchAlign = .fault ∧
    t.pc.toNat % 2 = 1 ∧ t.cfg.memSize ≤ t.pc.toNat + 1 := ⟨_, rfl, rfl, by decide, by decide⟩

/-- Each clause: the last free entry, a full stack, one entry, an empty stack. -/
theorem witness_CallPushesAndReturnPops :
    (let s := { State.reset with sp := 15 }; s.Inv ∧ s.sp < s.cfg.stackDepth ∧ 0 < s.sp) ∧
    (let s := { State.reset with sp := 16 }; s.Inv ∧ s.sp = s.cfg.stackDepth) ∧
    (let s := { State.reset with sp := 1 }; s.Inv ∧ 0 < s.sp) ∧
    (let s := testState [] 0x00EE; s.Inv ∧ s.sp = 0) :=
  ⟨⟨⟨by decide, by decide, by decide, by decide, by decide, by decide, by decide, by decide⟩, by decide, by decide⟩,
   ⟨⟨by decide, by decide, by decide, by decide, by decide, by decide, by decide, by decide⟩, by decide⟩,
   ⟨⟨by decide, by decide, by decide, by decide, by decide, by decide, by decide, by decide⟩, by decide⟩,
   ⟨⟨by decide, by decide, by decide, by decide, by decide, by decide, by decide, by decide⟩, by decide⟩⟩

theorem witness_CallThenReturnResumes :
    let s := { testState [] 0x2300 with mem := [(0x200, 0x23), (0x301, 0xEE)], sp := 15 }
    s.Inv ∧ s.Running ∧ s.Fetchable ∧ s.host = [] ∧ s.sp < s.cfg.stackDepth ∧ decode s.wordAtPc = .ok (.call 0x300) ∧
    ∃ t, step s = .next t ∧ t.Fetchable ∧ decode t.wordAtPc = .ok .ret :=
  ⟨⟨by decide, by decide, by decide, by decide, by decide, by decide, by decide, by decide⟩, ⟨rfl, rfl⟩,
   ⟨by decide, by decide⟩, rfl, by decide, by decide, _, rfl, ⟨by decide, by decide⟩, by decide⟩

theorem witness_FlagWritersWriteVfUnconditionally : (14 : Reg) ≠ VF ∧
    Instr.shl 14 ∈ [Instr.addReg 14 15, .sub 14 15, .shr 14, .subn 14 15, .shl 14] ∧
    Instr.rand 14 0 ∈ [Instr.loadImm 14 0, .addImm 14 0, .loadReg 14 15, .orReg 14 15, .andReg 14 15, .xorReg 14 15,
      .rand 14 0] := by decide

/-- Each clause: x other than F at the carry's boundary, and x = F in two modes. -/
theorem witness_AddRegSumsAndCarries : let s := testState [(1, 0xFF), (2, 0x01)] 0x8124
    (1 : Reg) ≠ VF ∧ 255 < (s.V 1).toNat + (s.V 2).toNat ∧ ¬ 255 < (s.V 1).toNat + (s.V 3).toNat ∧
    s.cfg.vfMode ≠ .latchedFlagLast ∧ (s.withMode .latchedFlagLast).cfg.vfMode = .latchedFlagLast := by decide

/-- Each clause: the three modes, VF an operand or not, equal operands. -/
theorem witness_SubtractionsWrapWithStrictFlag : let s := testState [(1, 4), (2, 4)] 0x8125
    Instr.sub 1 2 = .sub 1 2 ∧ (s.V 1).toNat = 4 ∧ (s.V 2).toNat = 4 ∧ (1 : Reg) ≠ VF ∧
    s.cfg.vfMode = .latchedResultLast ∧ (s.withMode .latchedFlagLast).cfg.vfMode = .latchedFlagLast ∧
    (s.withMode .sequential).cfg.vfMode = .sequential ∧ Instr.subn 15 15 ≠ .sub 15 15 := by decide

/-- Each clause: the value 0x81, with both end bits set, in the three modes. -/
theorem witness_ShiftsByOneWithTheBitShiftedOut : let s := testState [(4, 0x81)] 0x8406
    (s.V 4).toNat % 2 = 1 ∧ (s.V 4).toNat / 128 = 1 ∧ (4 : Reg) ≠ VF ∧ s.cfg.vfMode = .latchedResultLast ∧
    (s.withMode .latchedFlagLast).cfg.vfMode = .latchedFlagLast ∧ (s.withMode .sequential).cfg.vfMode = .sequential := by decide

theorem witness_VfModeMattersOnlyToVfOperands : let s := testState [(0, 7), (1, 63)] 0xD01F
    (0 : Reg) ≠ VF ∧ (1 : Reg) ≠ VF ∧
    Instr.draw 0 1 15 ∈ [Instr.addReg 0 1, .sub 0 1, .subn 0 1, .shr 0, .shl 0, .draw 0 1 15] ∧
    ∃ t, exec (.draw 0 1 15) (s.withMode .sequential) = .next t := ⟨by decide, by decide, by decide, _, rfl⟩

theorem witness_RandMasksTheRandomInput : let s := { testState [] 0xC30F with host := [.cycle 0xA7] }
    s.Running ∧ s.Fetchable ∧ decode s.wordAtPc = .ok (.rand 3 0x0F) ∧ s.host = .cycle 0xA7 :: [] :=
  ⟨⟨rfl, rfl⟩, ⟨by decide, by decide⟩, by decide, rfl⟩

/-- I at the last three bytes of memory, and just above the font region. -/
theorem witness_StoreBcdStoresTheDigits :
    (let s := testStateAt [(0, 255)] 0xFFD [] 0xF033
     Memory.wf s.cfg s.mem = true ∧ s.i.toNat + 3 ≤ s.cfg.memSize ∧ s.cfg.fontWrite = .fault ∧
       ∀ a, s.effAddr 0 ≤ a → a < s.effAddr 0 + 3 → s.cfg.inFont a = false) ∧
    (let s := testStateAt [(0, 255)] 0x050 [] 0xF033
     Memory.wf s.cfg s.mem = true ∧ s.i.toNat + 3 ≤ s.cfg.memSize ∧ s.cfg.fontWrite = .fault ∧
       ∀ a, s.effAddr 0 ≤ a → a < s.effAddr 0 + 3 → s.cfg.inFont a = false) := by
  refine ⟨⟨by decide, by decide, rfl, ?_⟩, ⟨by decide, by decide, rfl, ?_⟩⟩ <;> intro a h _
  · have h1 : 4093 ≤ a := h
    have h2 : ¬ a < 0 + 16 * 5 := by omega
    simp [Config.inFont, Config.fontSize, testStateAt, testState, State.storeBytes, State.withFetchWord,
      State.withWordAtPc, State.setV, State.reset, State.resetOf, defaultConfig]
    omega
  · have h1 : 80 ≤ a := h
    simp [Config.inFont, Config.fontSize, testStateAt, testState, State.storeBytes, State.withFetchWord,
      State.withWordAtPc, State.setV, State.reset, State.resetOf, defaultConfig]
    omega

/-- All sixteen registers at the last sixteen bytes of memory. -/
theorem witness_StoreRegsStoresEachRegister : let s := testStateAt [(15, 0x0F)] 0xFF0 [] 0xFF55
    Memory.wf s.cfg s.mem = true ∧ s.i.toNat + ((15 : Reg).val + 1) ≤ s.cfg.memSize ∧
    ∀ a, s.effAddr 0 ≤ a → a < s.effAddr 0 + ((15 : Reg).val + 1) → s.cfg.inFont a = false := by
  refine ⟨by decide, by decide, ?_⟩
  intro a h _
  have h1 : 0xFF0 ≤ a := h
  simp [Config.inFont, Config.fontSize, testStateAt, testState, State.storeBytes, State.withFetchWord,
    State.withWordAtPc, State.setV, State.reset, State.resetOf, defaultConfig]
  omega

/-- Each clause: the last sixteen bytes of memory, and one byte past. -/
theorem witness_LoadRegsLoadsEachRegister :
    (let s := { State.reset with i := 0xFF0 }; s.i.toNat + ((15 : Reg).val + 1) ≤ s.cfg.memSize) ∧
    (let s := { State.reset with i := 0xFF1 }; s.cfg.memSize < s.i.toNat + ((15 : Reg).val + 1)) := by decide

/-- Each clause: the last byte past memory, and the last byte of the font region. -/
theorem witness_StoresOutsideRamFault :
    (let s := { State.reset with i := 0xFFE }; s.cfg.memSize < s.i.toNat + storedLength (.storeBcd 0)) ∧
    (let s := { State.reset with i := 0x04F }
     s.i.toNat + storedLength (.storeRegs 0) ≤ s.cfg.memSize ∧ s.cfg.fontWrite = .fault ∧ 0 < s.cfg.fontSize ∧
       s.cfg.fontBase < s.i.toNat + storedLength (.storeRegs 0) ∧ s.i.toNat < s.cfg.fontBase + s.cfg.fontSize) := by decide

theorem witness_StoreThenLoadRestoresRegisters : let s := testStateAt [(0, 1), (15, 2)] 0xFF0 [] 0xFF55
    Memory.wf s.cfg s.mem = true ∧ s.fault.kind = .none ∧ ∃ t, exec (.storeRegs 15) s = .next t ∧ t.fault.kind = .none ∧
    ∃ u w, u.cfg = t.cfg ∧ u.mem = t.mem ∧ u.i = s.i ∧ u.fault.kind = .none ∧ exec (.loadRegs 15) u = .next w ∧
      w.fault.kind = .none ∧ w.V 15 = 2 :=
  ⟨by decide, by decide, _, rfl, by decide, _, _, rfl, rfl, rfl, by decide, rfl, by decide, by decide⟩

theorem witness_StoredWordIsFetchedNext : let s := { testState [(0, 0x12), (1, 0x0A)] 0xF155 with pc := 0x202, i := 0x202 }
    Memory.wf s.cfg s.mem = true ∧ (1 : Reg) ≤ 1 ∧ s.i = s.pc ∧ s.fault.kind = .none ∧
    ∃ t, exec (.storeRegs 1) s = .next t ∧ t.fault.kind = .none := ⟨by decide, by decide, rfl, by decide, _, rfl, by decide⟩

/-- Each clause: the key 15, the value 16 in the three policies. -/
theorem witness_KeySkipsTestTheKey : let s := testState [(1, 15), (2, 16)] 0xE19E
    (15 : Key).val = (s.V 1).toNat ∧ 16 ≤ (s.V 2).toNat ∧ (0 : Key).val = (s.V 2).toNat % 16 ∧ s.cfg.keyIndex = .fault ∧
    { s with cfg := { s.cfg with keyIndex := .mask } }.cfg.keyIndex = .mask ∧
    { s with cfg := { s.cfg with keyIndex := .notPressed } }.cfg.keyIndex = .notPressed := by decide

theorem witness_TimerRegistersAreReadAndWritten : let s := testState [(2, 1)] 0xF218
    s.cfg.timerDiv = 1 ∧ s.tick = 0 ∧ ¬ 1 < (s.V 2).toNat := by decide

theorem witness_WaitKeyHoldsUntilAKeyIsDelivered : (testState [] 0xFF0A).fault.kind = .none := by decide

theorem witness_WaitingCoreStaysPut : let s := { State.reset with waiting := true }
    s.waiting = true ∧ s.host = [] := ⟨rfl, rfl⟩

/-- Each clause: the last and the first cycle of a period of 3. -/
theorem witness_TimerStepCountsDown : let s := { State.reset with cfg := { defaultConfig with timerDiv := 3 } }
    { s with tick := 2 }.tick + 1 = s.cfg.timerDiv ∧ s.tick + 1 ≠ s.cfg.timerDiv := by decide

/-- The states of one cycle of load-imm V0, 0. -/
theorem witness_TimersReachZeroAfterTheirCount : let s := { testState [] 0x6000 with dt := 1 }
    s.cfg.timerDiv = 1 ∧ s.tick = 0 ∧ s.Running ∧ s.Fetchable ∧ s.host = [] ∧ decode s.wordAtPc = .ok (.loadImm 0 0) ∧
    ∃ t, step s = .next t ∧ t.fault.kind = .none ∧ t.dt = 0 :=
  ⟨by decide, by decide, ⟨rfl, rfl⟩, ⟨by decide, by decide⟩, rfl, by decide, _, rfl, rfl, by decide⟩

theorem witness_KeyUpdateSetsOneKey : let s := { State.reset with waiting := true, host := [.keyUpdate 15 true] }
    s.host = .keyUpdate 15 true :: [] := rfl

/-- Each clause: waiting without a fault, not waiting, halted while waiting, and ACK_REDRAW. -/
theorem witness_DeliverKeyAndAckRedraw :
    (let s := { State.reset with waiting := true, waitTarget := 15, host := [.deliverKey 15] }
     s.host = .deliverKey 15 :: [] ∧ s.waiting = true ∧ s.fault.kind = .none) ∧
    (let s := { State.reset with host := [.deliverKey 0] }; s.host = .deliverKey 0 :: [] ∧ s.waiting = false) ∧
    (let s := { State.reset with waiting := true, host := [.deliverKey 0], fault := ⟨.decodeFailure, 0, 0x200⟩ }
     s.host = .deliverKey 0 :: [] ∧ s.fault.kind ≠ .none) ∧
    (let s := { State.reset with dirty := true, host := [.ackRedraw] }; s.host = .ackRedraw :: []) := by decide

/-- An image that fills memory up to its last byte. -/
theorem witness_ResetSetsEveryPieceOfState :
    let s := { State.resetOf { defaultConfig with memSize := 0x202 } with host := [.reset [1, 2]], waiting := true }
    s.cfg.wf = true ∧ s.host = .reset [1, 2] :: [] ∧ s.cfg.programStart + [(1 : Byte), 2].length ≤ s.cfg.memSize := by decide

/-- Each clause: a fault that a RESET ends, and a wait that DELIVER_KEY ends. -/
theorem witness_OnlyTheHostEndsAHaltOrAWait :
    (let s := { State.reset with fault := ⟨.decodeFailure, 0, 0x200⟩, host := [.reset []] }
     ∃ t, step s = .next t ∧ s.fault.kind ≠ .none ∧ t.fault ≠ s.fault) ∧
    (let s := { State.reset with waiting := true, host := [.deliverKey 3] }
     ∃ t, step s = .next t ∧ s.waiting = true ∧ t.waiting = false) :=
  ⟨⟨_, rfl, by decide, by decide⟩, ⟨_, rfl, rfl, rfl⟩⟩

theorem witness_SelfJumpSpins : let s := { testState [] 0x1200 with dt := 5 }
    s.SelfJump ∧ s.host = [] ∧ s.cfg.memSize ≤ 4096 := ⟨⟨⟨rfl, rfl⟩, by decide, by decide, by decide⟩, rfl, by decide⟩

/-- Each clause: a shift with the largest `y`, an instruction without one, and an ill-formed one. -/
theorem witness_WrittenInstructionsEncode : (Written.mk "shl" [15, 15]).check = .ok (.shl 15) ∧
    (Written.mk "or" [15, 15]).check = .ok (.orReg 15 15) ∧ (Written.mk "shl" [0, 16]).check = .error .operandRange := by decide

end Sys2Proof.Tests
end

/-! What an instruction can do, said once for all of them, and the frame statements of spec/10_state.md that follow. -/

namespace Sys2Proof.Machine

/-- The six skips (spec/42_control_flow.md R145 to R148, spec/45_keys_timers.md R210, R211). -/
def IsSkip (i : Instr) : Prop :=
  (∃ x kk, i = .skipEqImm x kk ∨ i = .skipNeqImm x kk) ∨ (∃ x y, i = .skipEqReg x y ∨ i = .skipNeqReg x y) ∨
    ∃ x, i = .skipKeyPressed x ∨ i = .skipKeyNotPressed x

/-- The states an instruction `i` can lead to from `s`, by the state it writes (the "written by" column of
spec/10_state.md R39). `exec_effect` ties it to `exec`. -/
inductive Effect (s : State) : Instr → State → Prop where
  /-- a fault recorded, nothing else changed but PC (spec/60_exceptions.md R231, R232) -/
  | fault {i} (kind : FaultKind) (info : Word) (hkind : kind ≠ .none) : Effect s i (s.takeFault kind info (s.pc - 2))
  /-- the general registers of the "writes" column of R22 -/
  | regs {i} (v : Vector Byte 16) (keeps : ∀ r : Reg, regsWritten i r = false → v[r.val] = s.V r) :
      Effect s i { s with v := v }
  /-- one instruction word skipped or not -/
  | skip {i} (cond : Bool) (hi : IsSkip i) : Effect s i (s.skipIf cond)
  /-- PC alone -/
  | jump {i} (pc : Word) (hi : (∃ nnn, i = .jump nnn) ∨ ∃ nnn, i = .jumpOffset nnn) : Effect s i { s with pc := pc }
  /-- a return address pushed below `STACK_DEPTH` -/
  | call (nnn : Addr) (room : s.sp ≠ s.cfg.stackDepth) :
      Effect s (.call nnn) { s with sp := s.sp + 1, stack := s.stack.set s.sp s.pc, pc := zextAddr nnn }
  /-- the last return address popped -/
  | ret (nonempty : s.sp ≠ 0) : Effect s .ret { s with pc := s.stackAt s.sp, sp := s.sp - 1 }
  /-- I alone (spec/44_index_memory.md R194) -/
  | index {i} (a : Word) (hi : (∃ nnn, i = .loadIndex nnn) ∨ (∃ x, i = .addIndex x) ∨ ∃ x, i = .loadFontAddr x) :
      Effect s i { s with i := a }
  /-- the pixels, `dirty`, and of the registers VF where the instruction writes it -/
  | display {i} (v : Vector Byte 16) (pix : Display) (hi : i = .clearScreen ∨ ∃ x y n, i = .draw x y n)
      (keeps : ∀ r : Reg, regsWritten i r = false → v[r.val] = s.V r)
      (sized : Display.sized s.cfg s.pix = true → Display.sized s.cfg pix = true) :
      Effect s i { s with v := v, pix := pix, dirty := true }
  /-- the bytes from I up, every one checked first (R193) -/
  | store {i} (bs : List Byte) (hlen : bs.length = storedLength i)
      (checked : storeFault s.cfg (s.effAddr 0) bs.length = none) : Effect s i (s.storeBytes (s.effAddr 0) bs)
  | waitKey (x : Reg) : Effect s (.waitKey x) { s with waiting := true, waitTarget := x }
  | setDelay (x : Reg) : Effect s (.setDelay x) { s with dt := s.V x }
  | setSound (x : Reg) : Effect s (.setSound x) { s with st := s.V x }

/-! The effect of each shared operation -/

theorem effect_of_next {i : Instr} {s t u : State} (h : Host.Outcome.next u = (.next t : Result))
    (he : Effect s i u) : Effect s i t :=
  Host.Outcome.next.inj h ▸ he

theorem effect_setV {i : Instr} (s : State) (x : Reg) (b : Byte) (hx : regsWritten i x = true) :
    Effect s i (s.setV x b) := by
  refine .regs (s.setV x b).v fun r hr => ?_
  have hne : r ≠ x := fun e => by simp [e, hx] at hr
  exact (V_setV s x r b).trans (if_neg hne)

theorem effect_writeFlagged {i : Instr} (m : VfMode) (f g : Byte → Byte → Byte) (x y : Reg) (s : State)
    (hx : regsWritten i x = true) (hvf : regsWritten i VF = true) : Effect s i (writeFlagged m f g x y s) := by
  rw [writeFlagged_frame]
  refine .regs _ fun r hr => writeFlagged_V_other m f g x y r s ?_ ?_
  · exact fun e => by simp [e, hx] at hr
  · exact fun e => by simp [e, hvf] at hr

theorem effect_keySkip {i : Instr} {s t : State} {wanted : Bool} {x : Reg} (hi : IsSkip i)
    (h : keySkip wanted x s = .next t) : Effect s i t := by
  rcases keySkip_cases wanted x s with ⟨-, -, hf⟩ | ⟨c, hc⟩
  · obtain rfl := Host.Outcome.next.inj (hf.symm.trans h)
    exact .fault _ _ (by decide)
  · obtain rfl := Host.Outcome.next.inj (hc.symm.trans h)
    exact .skip c hi

theorem effect_unlessFault {i : Instr} {found : Option (FaultKind × Word)} {s run t : State}
    (hkind : ∀ kind info, found = some (kind, info) → kind ≠ .none) (hrun : found = none → Effect s i run)
    (h : unlessFault found s run = .next t) : Effect s i t := by
  rcases unlessFault_cases h with ⟨kind, info, hf, rfl⟩ | ⟨hf, rfl⟩
  · exact .fault kind info (hkind kind info hf)
  · exact hrun hf

theorem boundsFault_kind_ne_none {c : Config} {a n : Nat} (kind : FaultKind) (info : Word)
    (h : boundsFault c a n = some (kind, info)) : kind ≠ .none := by
  rw [boundsFault_kind h]; decide

theorem storeFault_kind_ne_none {c : Config} {a n : Nat} (kind : FaultKind) (info : Word)
    (h : storeFault c a n = some (kind, info)) : kind ≠ .none := by
  rcases storeFault_kind h with rfl | rfl <;> decide

theorem effect_store {i : Instr} {s t : State} {n : Nat} {bs : List Byte} (hn : bs.length = n)
    (hlen : n = storedLength i)
    (h : unlessFault (storeFault s.cfg (s.effAddr 0) n) s (s.storeBytes (s.effAddr 0) bs) = .next t) :
    Effect s i t := by
  subst hn
  exact effect_unlessFault storeFault_kind_ne_none (fun hf => .store bs hlen hf) h

/-! The effect of the instructions that need more than a shared operation -/

theorem effect_clearScreen (s : State) :
    Effect s .clearScreen { s with pix := blankDisplay s.cfg, dirty := true } :=
  .display s.v _ (.inl rfl) (fun _ _ => rfl) fun _ => sized_blank s.cfg

theorem effect_ret {s t : State} (h : execReturn s = .next t) : Effect s .ret t := by
  unfold execReturn at h
  split at h
  · exact effect_of_next h (.fault _ _ (by decide))
  · next hsp =>
    exact effect_of_next h (.ret hsp)

theorem effect_call {nnn : Addr} {s t : State} (h : execCall nnn s = .next t) : Effect s (.call nnn) t := by
  unfold execCall at h
  split at h
  · exact effect_of_next h (.fault _ _ (by decide))
  · next hroom =>
    exact effect_of_next h (.call nnn hroom)

theorem effect_draw_of_frame {x y : Reg} {n : RowCount} {s u : State}
    (h : u = { s with v := u.v, pix := u.pix, dirty := true } ∧ (∀ r, r ≠ VF → u.V r = s.V r) ∧
      (Display.sized s.cfg s.pix = true → Display.sized s.cfg u.pix = true)) : Effect s (.draw x y n) u := by
  obtain ⟨frame, keeps, sized⟩ := h
  rw [frame]
  refine .display _ _ (.inr ⟨x, y, n, rfl⟩) (fun r hr => keeps r ?_) sized
  simpa [regsWritten] using hr

theorem effect_draw {x y : Reg} {n : RowCount} {s t : State} (h : execDraw x y n s = .next t) :
    Effect s (.draw x y n) t := by
  refine effect_unlessFault boundsFault_kind_ne_none (fun _ => ?_) h
  cases s.cfg.vfMode with
  | latchedResultLast => exact effect_draw_of_frame (drawLatched_frame x y n s)
  | latchedFlagLast => exact effect_draw_of_frame (drawLatched_frame x y n s)
  | sequential => exact effect_draw_of_frame (drawSequential_frame x y n s)

theorem effect_loadRegs {x : Reg} {s t : State} (h : execLoadRegs x s = .next t) : Effect s (.loadRegs x) t := by
  refine effect_unlessFault boundsFault_kind_ne_none (fun _ => .regs _ fun r hr => ?_) h
  have hr : ¬ r ≤ x := by simpa [regsWritten] using hr
  simp [hr]

/-- What an instruction can do. -/
theorem exec_effect {i : Instr} {s t : State} (h : exec i s = .next t) : Effect s i t := by
  cases i with
  | clearScreen => exact effect_of_next h (effect_clearScreen s)
  | ret => exact effect_ret h
  | call nnn => exact effect_call h
  | jump nnn => exact effect_of_next h (.jump _ (.inl ⟨nnn, rfl⟩))
  | jumpOffset nnn => exact effect_of_next h (.jump _ (.inr ⟨nnn, rfl⟩))
  | skipEqImm x kk => exact effect_of_next h (.skip _ (.inl ⟨x, kk, .inl rfl⟩))
  | skipNeqImm x kk => exact effect_of_next h (.skip _ (.inl ⟨x, kk, .inr rfl⟩))
  | skipEqReg x y => exact effect_of_next h (.skip _ (.inr (.inl ⟨x, y, .inl rfl⟩)))
  | skipNeqReg x y => exact effect_of_next h (.skip _ (.inr (.inl ⟨x, y, .inr rfl⟩)))
  | skipKeyPressed x => exact effect_keySkip (.inr (.inr ⟨x, .inl rfl⟩)) h
  | skipKeyNotPressed x => exact effect_keySkip (.inr (.inr ⟨x, .inr rfl⟩)) h
  | loadImm x _ | addImm x _ | loadReg x _ | orReg x _ | andReg x _ | xorReg x _ | rand x _ | loadDelay x =>
    exact effect_of_next h (effect_setV s x _ (by simp [regsWritten]))
  | addReg x _ | sub x _ | subn x _ | shr x | shl x =>
    exact effect_of_next h (effect_writeFlagged _ _ _ x _ s (by simp [regsWritten]) (by simp [regsWritten]))
  | loadIndex nnn => exact effect_of_next h (.index _ (.inl ⟨nnn, rfl⟩))
  | addIndex x => exact effect_of_next h (.index _ (.inr (.inl ⟨x, rfl⟩)))
  | loadFontAddr x => exact effect_of_next h (.index _ (.inr (.inr ⟨x, rfl⟩)))
  | draw x y n => exact effect_draw h
  | waitKey x => exact effect_of_next h (.waitKey x)
  | setDelay x => exact effect_of_next h (.setDelay x)
  | setSound x => exact effect_of_next h (.setSound x)
  | storeBcd x => exact effect_store (bs := bcdDigits (s.V x)) rfl rfl h
  | storeRegs x => exact effect_store (length_firstRegs s x) rfl h
  | loadRegs x => exact effect_loadRegs h

/-! The invariant: what every transaction is made of keeps it -/

theorem timerDiv_pos_of_wf {c : Config} (h : c.wf = true) : 0 < c.timerDiv := by
  simp only [Config.wf, Bool.and_eq_true, decide_eq_true_eq] at h
  omega

/-- The reset state of a legal configuration meets the invariant. -/
theorem resetOf_inv {c : Config} (h : c.wf = true) : (State.resetOf c).Inv where
  cfg_wf := h
  mem_wf := rfl
  mem_inBounds := rfl
  sp_le := Nat.zero_le _
  stack_length := List.length_replicate
  pix_sized := sized_blank c
  tick_lt := timerDiv_pos_of_wf h
  fault_clear := fun _ => rfl

section
variable {s t : State} (h : s.Inv)
include h

theorem State.Inv.withHost (rest : List HostEvent) : ({ s with host := rest } : State).Inv := { h with }

theorem State.Inv.enterHandler (rnd : Byte) : (s.enterHandler rnd).Inv := { h with }

theorem State.Inv.keyUpdate (k : Key) (p : Bool) : (s.keyUpdate k p).Inv := { h with }

theorem State.Inv.ackRedraw : s.ackRedraw.Inv := { h with }

theorem State.Inv.deliverKey (k : Key) : (s.deliverKey k).Inv := by
  unfold State.deliverKey
  split
  · exact { h with }
  · exact h

theorem State.Inv.skipIf (cond : Bool) : (s.skipIf cond).Inv := by
  cases cond with
  | false => exact h
  | true => exact { h with }

theorem State.Inv.withFault {f : FaultReg} (hf : f.kind ≠ .none) : ({ s with fault := f } : State).Inv :=
  { h with fault_clear := fun hk => absurd hk hf }

theorem State.Inv.takeFault {kind : FaultKind} (hkind : kind ≠ .none) (info fpc : Word) :
    (s.takeFault kind info fpc).Inv :=
  { h with fault_clear := fun hk => absurd hk hkind }

theorem State.Inv.timerStep : s.timerStep.Inv := by
  have htick := h.tick_lt
  unfold State.timerStep
  split
  · exact { h with tick_lt := by show 0 < s.cfg.timerDiv; omega }
  · exact { h with tick_lt := by show s.tick + 1 < s.cfg.timerDiv; omega }

theorem State.Inv.resetWith {image : List Byte} (hfit : imageFits s.cfg image = true) : (s.resetWith image).Inv :=
  { resetOf_inv h.cfg_wf with
    mem_wf := writeBytes_wf s.cfg image [] _ rfl
    mem_inBounds := writeBytes_inBounds s.cfg image [] _ rfl (of_decide_eq_true hfit) }

theorem State.Inv.storeBytes {bs : List Byte} {a : Nat} (hb : boundsFault s.cfg a bs.length = none) :
    (s.storeBytes a bs).Inv where
  __ := h
  mem_wf := writeBytes_wf s.cfg bs s.mem a h.mem_wf
  mem_inBounds := by
    rcases boundsFault_none.mp hb with hle | hnil
    · exact writeBytes_inBounds s.cfg bs s.mem a h.mem_inBounds hle
    · obtain rfl := List.eq_nil_of_length_eq_zero hnil
      exact h.mem_inBounds

theorem State.Inv.effect {i : Instr} (he : Effect s i t) : t.Inv := by
  have hsp := h.sp_le
  cases he with
  | fault kind info hkind => exact h.takeFault hkind info _
  | skip cond => exact h.skipIf cond
  | regs | jump | index | waitKey | setDelay | setSound => exact { h with }
  | call nnn room =>
    exact { h with
      sp_le := by show s.sp + 1 ≤ s.cfg.stackDepth; omega
      stack_length := by simpa using h.stack_length }
  | ret => exact { h with sp_le := by show s.sp - 1 ≤ s.cfg.stackDepth; omega }
  | display v pix hi keeps sized => exact { h with pix_sized := sized h.pix_sized }
  | store bs hlen checked => exact h.storeBytes (storeFault_none.mp checked).1

end

theorem effect_cfg {i : Instr} {s t : State} (he : Effect s i t) : t.cfg = s.cfg := by
  cases he with
  | skip cond => exact skipIf_cfg s cond
  | _ => rfl

theorem fetchFault_kind_ne_none {s : State} {kind : FaultKind} {info : Word}
    (h : s.fetchFault = some (kind, info)) : kind ≠ .none := by
  unfold State.fetchFault at h
  split at h
  · simp only [Option.some.injEq, Prod.mk.injEq] at h
    rw [← h.1]; decide
  · exact boundsFault_kind_ne_none kind info h

theorem cycle_keeps_inv {rnd : Byte} {s t : State} (hs : s.Inv) (h : cycle rnd s = .next t) :
    t.Inv ∧ t.cfg = s.cfg := by
  rcases cycle_cases h with ⟨-, rfl⟩ | ⟨-, kind, info, hff, rfl⟩ | ⟨-, -, raw, -, rfl⟩ | ⟨-, -, i, u, -, hexec, hfin⟩
  · exact ⟨hs, rfl⟩
  · exact ⟨hs.takeFault (fetchFault_kind_ne_none hff) info _, rfl⟩
  · exact ⟨hs.takeFault (by decide) raw _, rfl⟩
  · have heff := exec_effect hexec
    rcases hfin with ⟨hk, rfl⟩ | ⟨-, rfl⟩
    · exact ⟨hs.withFault hk, rfl⟩
    · have hcfg : u.cfg = s.cfg := (effect_cfg heff).trans (enterHandler_cfg s rnd)
      exact ⟨((hs.enterHandler rnd).effect heff).timerStep, (timerStep_cfg u).trans hcfg⟩

/-- Settles O14: a step is a cycle or a transaction of the host, and each keeps the invariant and the configuration. -/
theorem stepKeepsInv : Obligations.StepKeepsInv := by
  intro s t hs h
  rcases step_cases h with ⟨rnd, s0, rfl | ⟨rest, rfl⟩, hc⟩ | ⟨e, rest, -, hevent⟩
  · exact cycle_keeps_inv hs hc
  · exact (cycle_keeps_inv (hs.withHost rest) hc :)
  · have hs' := hs.withHost rest
    rcases hevent with ⟨image, -, hfit, rfl⟩ | ⟨k, p, -, rfl⟩ | ⟨k, -, rfl⟩ | ⟨-, rfl⟩
    · exact ⟨hs'.resetWith hfit, rfl⟩
    · exact ⟨hs'.keyUpdate k p, rfl⟩
    · exact ⟨hs'.deliverKey k, deliverKey_cfg _ k⟩
    · exact ⟨hs'.ackRedraw, rfl⟩

/-! The frames of spec/10_state.md -/

/-- Settles O17: of the effects only a register write and a draw touch the register file. -/
theorem unwrittenRegistersKeepTheirValues : Obligations.UnwrittenRegistersKeepTheirValues := by
  intro i s t r h hr
  cases exec_effect h with
  | regs v keeps => exact keeps r hr
  | display v pix hi keeps => exact keeps r hr
  | skip cond => exact V_congr (skipIf_v s cond) r
  | _ => rfl

/-- Settles O19: each effect leaves every special register but its own. -/
theorem specialRegistersChangeOnlyWhereNamed : Obligations.SpecialRegistersChangeOnlyWhereNamed := by
  intro i s t h
  cases exec_effect h with
  | fault | regs | skip | jump | call | ret | store | waitKey | setDelay | setSound => simp
  | index a hi => rcases hi with ⟨_, rfl⟩ | ⟨_, rfl⟩ | ⟨_, rfl⟩ <;> simp
  | display v pix hi => rcases hi with rfl | ⟨_, _, _, rfl⟩ <;> simp

/-- Settles O20: of the effects without a fault only a skip moves PC once the control transfers are set aside. -/
theorem pcMovesOnlyByControlTransfer : Obligations.PcMovesOnlyByControlTransfer := by
  intro i s t _ h hfault hjump hcall hret hoffset
  cases exec_effect h with
  | fault kind info hkind => exact absurd hfault hkind
  | skip cond hi =>
    cases cond with
    | false => exact .inl rfl
    | true => exact .inr ⟨rfl, hi⟩
  | jump pc hi =>
    rcases hi with ⟨nnn, rfl⟩ | ⟨nnn, rfl⟩
    · exact absurd rfl (hjump nnn)
    · exact absurd rfl (hoffset nnn)
  | call nnn => exact absurd rfl (hcall nnn)
  | ret => exact absurd rfl hret
  | _ => exact .inl rfl

/-! The reset state -/

/-- Settles O15: the parameters of this hardware are a legal configuration. -/
theorem resetMeetsInv : Obligations.ResetMeetsInv :=
  ⟨resetOf_inv (by decide), fun _ => resetOf_inv⟩

theorem inFont_defaultConfig (a : Nat) : defaultConfig.inFont a = decide (a < 80) := by
  simp [Config.inFont, Config.fontSize, defaultConfig]

/-- Memory after reset in this hardware (spec/10_state.md R33, R40). -/
theorem readByte_reset (a : Nat) : State.reset.readByte a = if a < 80 then fontTable.getD a 0 else 0 := by
  show resetByte defaultConfig a = _
  simp only [resetByte, inFont_defaultConfig, decide_eq_true_eq]
  rfl

theorem V_resetOf (c : Config) (r : Reg) : (State.resetOf c).V r = 0 := Vector.getElem_replicate _

/-- Settles O57: the registers and the display are blank, and memory is the font table with zeros above it. -/
theorem resetStateOfThisHardware : Obligations.ResetStateOfThisHardware := by
  refine ⟨rfl, V_resetOf _, rfl, rfl, rfl, rfl, rfl, pixel_blank _, rfl, rfl, rfl, fun a ha => ?_, fun a ha => ?_,
    by decide, by decide⟩
  · rw [readByte_reset, if_pos ha]
  · rw [readByte_reset, if_neg (Nat.not_lt.mpr ha)]

end Sys2Proof.Machine

/-! What reaches memory (spec/20_memory.md): the stores of an instruction, the font region under its policy, and the
fetch. -/

namespace Sys2Proof.Machine

/-! What a store can change -/

/-- A byte is read from the configuration and the memory alone. -/
theorem readByte_congr {s t : State} (hcfg : t.cfg = s.cfg) (hmem : t.mem = s.mem) (a : Nat) :
    t.readByte a = s.readByte a := by
  simp only [State.readByte, hcfg, hmem]

/-- An instruction leaves memory as it was, or stores its `storedLength` bytes from I up, every one checked. -/
theorem effect_mem {i : Instr} {s t : State} (he : Effect s i t) :
    t.mem = s.mem ∨
    ∃ bs, bs.length = storedLength i ∧ storeFault s.cfg (s.effAddr 0) bs.length = none ∧
      t = s.storeBytes (s.effAddr 0) bs := by
  cases he with
  | store bs hlen checked => exact .inr ⟨bs, hlen, checked, rfl⟩
  | skip cond => exact .inl (skipIf_mem s cond)
  | _ => exact .inl rfl

/-- A store whose checks pass leaves every byte of the font region as it was, where the policy is to fault. -/
theorem readByte_font_of_storeFault_none {s : State} (hwf : Memory.wf s.cfg s.mem = true)
    (hpolicy : s.cfg.fontWrite = .fault) {a k : Nat} {bs : List Byte}
    (checked : storeFault s.cfg a bs.length = none) (hk : s.cfg.inFont k = true) :
    (s.storeBytes a bs).readByte k = s.readByte k := by
  have hfont := fontFault_none.mp (storeFault_none.mp checked).2 hpolicy
  have hout : ¬ (a ≤ k ∧ k < a + bs.length) := fun ⟨hlow, hhigh⟩ => by simp [hfont k hlow hhigh] at hk
  rw [readByte_storeBytes s hwf, if_neg hout]

/-- Settles O18: what an instruction stores is written from I up, and a read elsewhere passes the writes by. -/
theorem unstoredBytesKeepTheirValues : Obligations.UnstoredBytesKeepTheirValues := by
  intro i s t hwf h
  have he := exec_effect h
  rcases effect_mem he with hmem | ⟨bs, hlen, -, rfl⟩
  · exact ⟨fun _ => hmem, fun a _ => readByte_congr (effect_cfg he) hmem a⟩
  · rw [← hlen]
    refine ⟨fun hnil => ?_, fun a hout => by rw [readByte_storeBytes s hwf, if_neg hout]⟩
    obtain rfl := List.eq_nil_of_length_eq_zero hnil
    rfl

/-! The font table -/

/-- The font table stays intact where its bytes read as before. -/
theorem State.FontIntact.of_readByte {s t : State} (hfont : s.FontIntact) (hcfg : t.cfg = s.cfg)
    (hread : ∀ a, s.cfg.inFont a = true → t.readByte a = s.readByte a) : t.FontIntact := by
  intro a ha
  rw [hcfg] at ha ⊢
  rw [hread a ha, hfont a ha]

/-- The font table is a matter of the configuration and the memory alone. -/
theorem State.FontIntact.congr {s t : State} (hfont : s.FontIntact) (hcfg : t.cfg = s.cfg) (hmem : t.mem = s.mem) :
    t.FontIntact :=
  hfont.of_readByte hcfg fun a _ => readByte_congr hcfg hmem a

theorem State.FontIntact.effect {i : Instr} {s t : State} (hfont : s.FontIntact)
    (hwf : Memory.wf s.cfg s.mem = true) (hpolicy : s.cfg.fontWrite = .fault) (he : Effect s i t) : t.FontIntact := by
  refine hfont.of_readByte (effect_cfg he) fun a ha => ?_
  rcases effect_mem he with hmem | ⟨bs, -, checked, rfl⟩
  · exact readByte_congr (effect_cfg he) hmem a
  · exact readByte_font_of_storeFault_none hwf hpolicy checked ha

theorem State.FontIntact.cycle {rnd : Byte} {s t : State} (hfont : s.FontIntact)
    (hwf : Memory.wf s.cfg s.mem = true) (hpolicy : s.cfg.fontWrite = .fault) (h : cycle rnd s = .next t) :
    t.FontIntact := by
  rcases cycle_cases h with ⟨-, rfl⟩ | ⟨-, kind, info, -, rfl⟩ | ⟨-, -, raw, -, rfl⟩ | ⟨-, -, i, u, -, hexec, hfin⟩
  · exact hfont
  · exact hfont.congr rfl rfl
  · exact hfont.congr rfl rfl
  · rcases hfin with ⟨-, rfl⟩ | ⟨-, rfl⟩
    · exact hfont.congr rfl rfl
    · have hentered : (s.enterHandler rnd).FontIntact := hfont.congr rfl rfl
      exact (hentered.effect hwf hpolicy (exec_effect hexec)).congr (timerStep_cfg u) (timerStep_mem u)

/-- The font region ends at or below the program (R8). -/
theorem lt_programStart_of_inFont {c : Config} (hwf : c.wf = true) {a : Nat} (ha : c.inFont a = true) :
    a < c.programStart := by
  simp only [Config.wf, Config.inFont, Bool.and_eq_true, decide_eq_true_eq] at hwf ha
  omega

/-- A RESET puts the font table back, whatever the state before it (spec/70_reset_and_hazards.md R260): the image is
loaded above it. -/
theorem fontIntact_resetWith {s : State} (hwf : s.cfg.wf = true) (image : List Byte) :
    (s.resetWith image).FontIntact := by
  intro a ha
  have hfont : s.cfg.inFont a = true := ha
  have hbelow := lt_programStart_of_inFont hwf hfont
  calc (s.resetWith image).readByte a
    _ = Memory.read s.cfg [] a := by
      refine (read_writeBytes s.cfg image [] s.cfg.programStart rfl a).trans (if_neg ?_)
      omega
    _ = s.cfg.fontData.getD (a - s.cfg.fontBase) 0 := if_pos hfont

/-- Settles O16: a cycle stores only behind the font check, a RESET loads the table anew, and no other transaction
writes memory. -/
theorem fontTableStaysIntact : Obligations.FontTableStaysIntact := by
  intro s t hs hpolicy hfont h
  rcases step_cases h with ⟨rnd, s0, rfl | ⟨rest, rfl⟩, hc⟩ | ⟨e, rest, -, hevent⟩
  · exact hfont.cycle hs.mem_wf hpolicy hc
  · exact (hfont.congr rfl rfl).cycle (s := { s with host := rest }) hs.mem_wf hpolicy hc
  · rcases hevent with ⟨image, -, -, rfl⟩ | ⟨k, p, -, rfl⟩ | ⟨k, -, rfl⟩ | ⟨-, rfl⟩
    · exact fontIntact_resetWith hs.cfg_wf image
    · exact hfont.congr rfl rfl
    · exact hfont.congr (deliverKey_cfg _ k) (deliverKey_mem _ k)
    · exact hfont.congr rfl rfl

/-! The fetch -/

/-- The decoder's only failure carries the word it was given (spec/30_encoding.md R78). -/
theorem decode_error {w : Word} {e : DecodeError} (h : decode w = .error e) : e = .decodeFailure w := by
  unfold decode at h
  repeat' split at h
  all_goals cases h
  all_goals rfl

theorem cycle_of_fetchFault {rnd : Byte} {s : State} {kind : FaultKind} {info : Word} (hrun : s.Running)
    (hf : s.fetchFault = some (kind, info)) : cycle rnd s = .next { s with fault := ⟨kind, info, s.pc⟩ } := by
  obtain ⟨hfault, hwait⟩ := hrun
  simp [cycle, hfault, hwait, hf, takeFault_eq]

theorem cycle_of_decode_error {rnd : Byte} {s : State} {e : DecodeError} (hrun : s.Running)
    (hf : s.fetchFault = none) (hd : decode s.wordAtPc = .error e) :
    cycle rnd s = .next { s with fault := ⟨.decodeFailure, s.wordAtPc, s.pc⟩ } := by
  obtain ⟨hfault, hwait⟩ := hrun
  obtain rfl := decode_error hd
  simp [cycle, hfault, hwait, hf, runWord, hd, takeFault_eq]

/-- Where the alignment is not at fault, the fetch reports the lower of its two addresses that does not exist. -/
theorem fetchFault_bounds {s : State} (halign : ¬ (s.cfg.fetchAlign = .fault ∧ s.pc.toNat % 2 = 1))
    (hout : s.cfg.memSize ≤ s.pc.toNat + 1) :
    s.fetchFault = some (.memOutOfBounds, BitVec.ofNat 16 (max s.pc.toNat s.cfg.memSize)) := by
  have hpast : ¬ (s.pc.toNat + 2 ≤ s.cfg.memSize ∨ 2 = 0) := by omega
  rw [State.fetchFault, if_neg halign, boundsFault_eq, if_neg hpast]

/-- Settles O8: the four outcomes of a fetch, in R234's order. -/
theorem fetchReadsHighByteFirstAndFaultsInOrder : Obligations.FetchReadsHighByteFirstAndFaultsInOrder := by
  intro s hrun hhost
  rw [step_nil hhost]
  refine ⟨toNat_wordOfBytes _ _, fun hodd => cycle_of_fetchFault hrun (if_pos hodd), fun halign => ⟨?_, ?_, ?_⟩⟩
  · intro hpc
    have hfetch := fetchFault_bounds halign (by omega)
    rw [Nat.max_eq_left hpc, BitVec.ofNat_toNat, BitVec.setWidth_eq] at hfetch
    exact cycle_of_fetchFault hrun hfetch
  · rintro ⟨hpc, hnext⟩
    have hfetch := fetchFault_bounds halign hnext
    have hmax : max s.pc.toNat s.cfg.memSize = s.pc.toNat + 1 := by omega
    rw [hmax, BitVec.ofNat_add, BitVec.ofNat_toNat, BitVec.setWidth_eq] at hfetch
    exact cycle_of_fetchFault hrun hfetch
  · rintro ⟨hbounds, hnone⟩
    have hfetch : s.fetchFault = none :=
      fetchFault_none.mpr ⟨fun hpolicy => Nat.mod_two_ne_one.mp fun hodd => halign ⟨hpolicy, hodd⟩, hbounds⟩
    cases hd : decode s.wordAtPc with
    | ok i => exact absurd hd (hnone i)
    | error e => exact cycle_of_decode_error hrun hfetch hd

/-! A word stored where the next cycle fetches -/

/-- The first two of the bytes stored at PC are the word there. -/
theorem wordAtPc_storeBytes {s : State} (hwf : Memory.wf s.cfg s.mem = true) {bs : List Byte} (hlen : 1 < bs.length) :
    (s.storeBytes s.pc.toNat bs).wordAtPc = wordOfBytes (bs.getD 0 0) (bs.getD 1 0) := by
  have hread (k : Nat) (hk : k < bs.length) :
      (s.storeBytes s.pc.toNat bs).readByte (s.pc.toNat + k) = bs.getD k 0 := by
    rw [readByte_storeBytes s hwf, if_pos ⟨Nat.le_add_right _ k, Nat.add_lt_add_left hk _⟩, Nat.add_sub_cancel_left]
  exact congrArg₂ wordOfBytes (hread 0 (Nat.lt_of_succ_lt hlen)) (hread 1 hlen)

/-- All 16 bits of the number given are the word placed. -/
theorem withFetchWord_eq (s : State) (w : Nat) : s.withFetchWord 16 w = s.withWordAtPc (BitVec.ofNat 16 w) :=
  congrArg s.withWordAtPc (BitVec.eq_of_toNat_eq (by simp))

/-- Settles O7: the two bytes stored at PC are the word the fetch reads. -/
theorem placedWordIsFetchedNext : Obligations.PlacedWordIsFetchedNext := by
  intro s w hs hfetchable
  rw [withFetchWord_eq]
  refine ⟨⟨rfl, rfl⟩, hfetchable, rfl, ?_, fun a hpc hnext => ?_, rfl⟩
  · have hlen : 1 < [highByte (BitVec.ofNat 16 w), lowByte (BitVec.ofNat 16 w)].length := Nat.lt_add_one 1
    exact (wordAtPc_storeBytes hs.mem_wf hlen).trans (wordOfBytes_of_word _)
  · refine (readByte_storeBytes s hs.mem_wf s.pc.toNat _ a).trans (if_neg ?_)
    simp only [List.length_cons, List.length_nil]
    omega

/-- A store-regs that raises no fault stores V0 to V[x] from I up and does nothing else. -/
theorem exec_storeRegs_completes {x : Reg} {s t : State} (h : exec (.storeRegs x) s = .next t)
    (hok : t.fault.kind = .none) : t = s.storeBytes (s.effAddr 0) (s.firstRegs x) := by
  rcases unlessFault_cases (h : execStoreRegs x s = .next t) with ⟨kind, info, hf, rfl⟩ | ⟨-, hrun⟩
  · exact absurd hok (storeFault_kind_ne_none kind info hf)
  · exact hrun

/-- Settles O47: V0 and V1 are the first two bytes stored at PC. -/
theorem storedWordIsFetchedNext : Obligations.StoredWordIsFetchedNext := by
  intro x s t hwf hx hi _ h hok
  have hpc : s.effAddr 0 = s.pc.toNat := congrArg BitVec.toNat hi
  have hlen : 1 < (s.firstRegs x).length := by
    rw [length_firstRegs]
    exact Nat.lt_succ_of_le hx
  have h0 : (s.firstRegs x).getD 0 0 = s.V 0 := firstRegs_getD s x 0 (Fin.zero_le x)
  have h1 : (s.firstRegs x).getD 1 0 = s.V 1 := firstRegs_getD s x 1 hx
  rw [exec_storeRegs_completes h hok, hpc, wordAtPc_storeBytes hwf hlen, toNat_wordOfBytes, h0, h1]

end Sys2Proof.Machine

/-! The decoder and the encoder undo each other, and both agree with the opcode map (spec/30_encoding.md R72 to R81). -/

namespace Sys2Proof

/-! A word is the word of its fields (R72) -/

theorem wordOfNnn_eq_iff {f a : Nat} (hf : f < 16) (ha : a < 4096) {w : Word} :
    wordOfNnn f a = w ↔ bits w 15 12 = f ∧ (fieldNnn w).toNat = a := by
  have := w.isLt
  rw [← BitVec.toNat_inj, toNat_wordOfNnn hf ha, toNat_fieldNnn]
  simp only [bits]
  omega

theorem wordOfXkk_eq_iff {f k : Nat} (hf : f < 16) {x : Reg} (hk : k < 256) {w : Word} :
    wordOfXkk f x k = w ↔ bits w 15 12 = f ∧ fieldX w = x ∧ bits w 7 0 = k := by
  have := w.isLt
  rw [← BitVec.toNat_inj, toNat_wordOfXkk hf x hk, Fin.ext_iff]
  simp only [bits, fieldX, nibble]
  omega

theorem wordOfXyn_eq_iff {f n : Nat} (hf : f < 16) {x y : Reg} (hn : n < 16) {w : Word} :
    wordOfXyn f x y n = w ↔ bits w 15 12 = f ∧ fieldX w = x ∧ fieldY w = y ∧ bits w 3 0 = n := by
  have := w.isLt
  rw [← BitVec.toNat_inj, toNat_wordOfXyn hf x y hn, Fin.ext_iff, Fin.ext_iff]
  simp only [bits, fieldX, fieldY, nibble]
  omega

theorem fieldY_wordOfXyn {f n : Nat} (hf : f < 16) (x y : Reg) (hn : n < 16) : fieldY (wordOfXyn f x y n) = y := by
  obtain ⟨-, -, hy, -⟩ := fields_wordOfXyn hf x y hn
  exact hy

theorem fieldKk_eq_bits (w : Word) : (fieldKk w).toNat = bits w 7 0 := by
  simp [toNat_fieldKk, bits]

theorem fieldN_eq_bits (w : Word) : (fieldN w).val = bits w 3 0 := rfl

/-! The round trips -/

/-- The decoder reads back what the encoder writes, whatever the `y` given to shr and shl (R75, R77, R81). -/
theorem decode_encodeWith (y : Reg) (i : Instr) : decode (encodeWith y i) = .ok i := by
  cases i with
  | clearScreen | ret => simp [encodeWith, decode, bits]
  | jump nnn | call nnn | loadIndex nnn | jumpOffset nnn =>
    simp [encodeWith, decode, fields_wordOfNnn _ nnn.isLt]
  | skipEqImm x kk | skipNeqImm x kk | loadImm x kk | addImm x kk | rand x kk =>
    simp [encodeWith, decode, fields_wordOfXkk _ x kk.isLt]
  | draw x y n => simp [encodeWith, decode, fields_wordOfXyn _ x y n.isLt]
  | skipEqReg x z | skipNeqReg x z | loadReg x z | orReg x z | andReg x z | xorReg x z | addReg x z | sub x z
  | subn x z => simp [encodeWith, decode, fields_wordOfXyn _ x z]
  | shr x | shl x => simp [encodeWith, decode, fields_wordOfXyn _ x y]
  | skipKeyPressed x | skipKeyNotPressed x | loadDelay x | waitKey x | setDelay x | setSound x | addIndex x
  | loadFontAddr x | storeBcd x | storeRegs x | loadRegs x =>
    simp [encodeWith, decode, fields_wordOfXkk _ x]

/-- A word that decodes is the encoder's word of its instruction, with its own `y` for shr and shl: in every arm of the
decoder the selector bits are the ones tested and the operands are the fields. -/
theorem encodeWith_of_decode {w : Word} {i : Instr} (h : decode w = .ok i) : encodeWith (fieldY w) i = w := by
  unfold decode at h
  repeat' split at h
  all_goals cases h
  all_goals
    simp (disch := omega) only [encodeWith, wordOfNnn_eq_iff, wordOfXkk_eq_iff, wordOfXyn_eq_iff]
    simp [*, fieldKk_eq_bits, fieldN_eq_bits]

/-- The bits of a word as the opcode table numbers them are read as that word. -/
theorem decodeTableWord_toNat (w : Word) : decodeTableWord 16 w.toNat = (decode w).toOption := by
  have hw : BitVec.ofNat 16 (w.toNat % 2 ^ 16) = w := by
    rw [Nat.mod_eq_of_lt w.isLt, BitVec.ofNat_toNat, BitVec.setWidth_eq]
  simp only [decodeTableWord, hw, decodeBytes, wordOfBytes_of_word]
  cases decode w <;> rfl

/-- Settles O2: the two readings of a word are one, and the decoder reads back what the encoder writes. -/
theorem encodedInstructionDecodesToItself : Obligations.EncodedInstructionDecodesToItself := by
  intro i _
  have hdecode : decode (encode i) = .ok i := decode_encodeWith 0 i
  exact ⟨hdecode, by rw [decodeTableWord_toNat, hdecode]; rfl⟩

/-! Masks -/

theorem bits_and (w m : Word) (hi lo : Nat) : bits (w &&& m) hi lo = bits w hi lo &&& bits m hi lo := by
  simp only [bits, BitVec.toNat_and, Nat.and_div_two_pow, Nat.and_mod_two_pow]

/-- A mask keeps the bits that it holds in full. -/
theorem bits_and_of_full (w : Word) {m : Word} {hi lo : Nat} (hm : bits m hi lo = 2 ^ (hi + 1 - lo) - 1) :
    bits (w &&& m) hi lo = bits w hi lo := by
  rw [bits_and, hm, Nat.and_two_pow_sub_one_eq_mod]
  exact Nat.mod_mod _ _

/-- A mask clears the bits that it does not hold at all. -/
theorem bits_and_of_zero (w : Word) {m : Word} {hi lo : Nat} (hm : bits m hi lo = 0) : bits (w &&& m) hi lo = 0 := by
  rw [bits_and, hm, Nat.and_zero]

theorem fieldX_and_of_full (w : Word) {m : Word} (hm : bits m 11 8 = 15) : fieldX (w &&& m) = fieldX w :=
  Fin.ext (bits_and_of_full (hi := 11) w hm)

theorem fieldX_and_of_zero (w : Word) {m : Word} (hm : bits m 11 8 = 0) : fieldX (w &&& m) = 0 :=
  Fin.ext (bits_and_of_zero (hi := 11) w hm)

theorem fieldY_and_of_zero (w : Word) {m : Word} (hm : bits m 7 4 = 0) : fieldY (w &&& m) = 0 :=
  Fin.ext (bits_and_of_zero (hi := 7) w hm)

theorem bits_lt (w : Word) (hi lo : Nat) : bits w hi lo < 2 ^ (hi + 1 - lo) := Nat.mod_lt _ (Nat.two_pow_pos _)

theorem and_F000 (w : Word) : w &&& 0xF000#16 = wordOfXkk (bits w 15 12) 0 0 :=
  ((wordOfXkk_eq_iff (bits_lt w 15 12) (by decide)).mpr
    ⟨bits_and_of_full w rfl, fieldX_and_of_zero w rfl, bits_and_of_zero w rfl⟩).symm

theorem and_F0FF (w : Word) : w &&& 0xF0FF#16 = wordOfXkk (bits w 15 12) 0 (bits w 7 0) :=
  ((wordOfXkk_eq_iff (bits_lt w 15 12) (bits_lt w 7 0)).mpr
    ⟨bits_and_of_full w rfl, fieldX_and_of_zero w rfl, bits_and_of_full w rfl⟩).symm

theorem and_F00F (w : Word) : w &&& 0xF00F#16 = wordOfXyn (bits w 15 12) 0 0 (bits w 3 0) :=
  ((wordOfXyn_eq_iff (bits_lt w 15 12) (bits_lt w 3 0)).mpr
    ⟨bits_and_of_full w rfl, fieldX_and_of_zero w rfl, fieldY_and_of_zero w rfl, bits_and_of_full w rfl⟩).symm

theorem and_FF0F (w : Word) : w &&& 0xFF0F#16 = wordOfXyn (bits w 15 12) (fieldX w) 0 (bits w 3 0) :=
  ((wordOfXyn_eq_iff (bits_lt w 15 12) (bits_lt w 3 0)).mpr
    ⟨bits_and_of_full w rfl, fieldX_and_of_full w rfl, fieldY_and_of_zero w rfl, bits_and_of_full w rfl⟩).symm

/-- Masking the `y` field off leaves the word with `y` = 0. -/
theorem wordOfXyn_and_FF0F {f n : Nat} (hf : f < 16) (x y : Reg) (hn : n < 16) :
    wordOfXyn f x y n &&& 0xFF0F#16 = wordOfXyn f x 0 n := by
  obtain ⟨hfam, hx, -, hlow, -⟩ := fields_wordOfXyn hf x y hn
  rw [and_FF0F, hfam, hx, hlow]

/-- The `y` given to the encoder is of no matter, or the instruction is a shift. -/
theorem encodeWith_eq_encode_or_shift (y : Reg) (i : Instr) :
    encodeWith y i = encode i ∨ ∃ x, i = .shr x ∨ i = .shl x := by
  by_cases hshift : ∃ x, i = .shr x ∨ i = .shl x
  · exact .inr hshift
  · exact .inl (encodeWith_eq (fun x => ⟨fun hx => hshift ⟨x, .inl hx⟩, fun hx => hshift ⟨x, .inr hx⟩⟩) y)

/-- An encoded shift with its `y` field cleared is the shift encoded without a `y`. -/
theorem encodeWith_and_FF0F {i : Instr} {x : Reg} (hi : i = .shr x ∨ i = .shl x) (y : Reg) :
    encodeWith y i &&& 0xFF0F#16 = encode i := by
  rcases hi with rfl | rfl
  · exact wordOfXyn_and_FF0F (by decide) x y (by decide)
  · exact wordOfXyn_and_FF0F (by decide) x y (by decide)

/-- Settles O3: a word that decodes is the encoder's with some `y`, which matters to shr and shl alone. -/
theorem decodedWordEncodesBack : Obligations.DecodedWordEncodesBack := by
  intro w i h
  have hw := encodeWith_of_decode h
  rcases encodeWith_eq_encode_or_shift (fieldY w) i with heq | ⟨x, hi⟩
  · exact .inl (heq.symm.trans hw)
  · exact .inr ⟨x, hi, by rw [← encodeWith_and_FF0F hi (fieldY w), hw]⟩

/-! The opcode map -/

/-- A word that a row selects has the bits of the row's pattern wherever the mask holds a field in full. -/
theorem bits_of_selects {r : OpcodeRow} {w : Word} (h : r.selects w = true) (hi lo : Nat)
    (hm : bits r.mask hi lo = 2 ^ (hi + 1 - lo) - 1) : bits w hi lo = bits r.pattern hi lo := by
  rw [← bits_and_of_full w hm, beq_iff_eq.mp h]

/-- The one word that a row with the mask FFFF selects is its pattern. -/
theorem eq_pattern_of_selects {name : String} {p w : Word} (h : OpcodeRow.selects ⟨name, 0xFFFF, p⟩ w = true) :
    w = p :=
  BitVec.and_allOnes.symm.trans (beq_iff_eq.mp h)

/-- A word that a row of the opcode map selects decodes to the operation of the row's name: the row's mask holds in full
every field that the decoder's arm tests, so the word has there what the pattern has. -/
theorem decode_of_selects {r : OpcodeRow} (hr : r ∈ opcodeTable) {w : Word} (h : r.selects w = true) :
    ∃ i, decode w = .ok i ∧ i.mnemonic = r.name := by
  have hbits := bits_of_selects h
  simp only [bits_eq r.mask, bits_eq r.pattern] at hbits
  rcases List.mem_cons.mp hr with rfl | hr
  · exact ⟨.clearScreen, by rw [eq_pattern_of_selects h]; decide, rfl⟩
  rcases List.mem_cons.mp hr with rfl | hr
  · exact ⟨.ret, by rw [eq_pattern_of_selects h]; decide, rfl⟩
  clear h
  fin_cases hr
  all_goals simp [decode, hbits, Instr.mnemonic]

theorem selects_pattern {name : String} (p : Word) : OpcodeRow.selects ⟨name, 0xFFFF, p⟩ p = true :=
  beq_iff_eq.mpr BitVec.and_allOnes

theorem selects_of_family {name : String} {f : Nat} {w : Word} (hfam : bits w 15 12 = f) :
    OpcodeRow.selects ⟨name, 0xF000, wordOfXkk f 0 0⟩ w = true :=
  beq_iff_eq.mpr (hfam ▸ and_F000 w)

theorem selects_wordOfXkk {name : String} {f k : Nat} (hf : f < 16) (x : Reg) (hk : k < 256) :
    OpcodeRow.selects ⟨name, 0xF0FF, wordOfXkk f 0 k⟩ (wordOfXkk f x k) = true := by
  obtain ⟨hfam, -, hlow, -⟩ := fields_wordOfXkk hf x hk
  exact beq_iff_eq.mpr ((and_F0FF _).trans (by rw [hfam, hlow]))

theorem selects_wordOfXyn {name : String} {f n : Nat} (hf : f < 16) (x y : Reg) (hn : n < 16) :
    OpcodeRow.selects ⟨name, 0xF00F, wordOfXyn f 0 0 n⟩ (wordOfXyn f x y n) = true := by
  obtain ⟨hfam, -, -, hlow, -⟩ := fields_wordOfXyn hf x y hn
  exact beq_iff_eq.mpr ((and_F00F _).trans (by rw [hfam, hlow]))

/-- The encoder's word is selected by a row with the instruction's name. -/
theorem exists_row_selects_encodeWith (y : Reg) (i : Instr) :
    ∃ r ∈ opcodeTable, r.selects (encodeWith y i) = true ∧ r.name = i.mnemonic := by
  cases i with
  | clearScreen => exact ⟨_, by decide, selects_pattern 0x00E0, rfl⟩
  | ret => exact ⟨_, by decide, selects_pattern 0x00EE, rfl⟩
  | jump nnn | call nnn | loadIndex nnn | jumpOffset nnn =>
    exact ⟨_, by decide, selects_of_family (fields_wordOfNnn (by decide) nnn.isLt).1, rfl⟩
  | skipEqImm x kk | skipNeqImm x kk | loadImm x kk | addImm x kk | rand x kk =>
    exact ⟨_, by decide, selects_of_family (fields_wordOfXkk (by decide) x kk.isLt).1, rfl⟩
  | draw x y n =>
    exact ⟨_, by decide, selects_of_family (fields_wordOfXyn (by decide) x y n.isLt).1, rfl⟩
  | skipEqReg x z | skipNeqReg x z | loadReg x z | orReg x z | andReg x z | xorReg x z | addReg x z | sub x z
  | subn x z => exact ⟨_, by decide, selects_wordOfXyn (by decide) x z (by decide), rfl⟩
  | shr x | shl x => exact ⟨_, by decide, selects_wordOfXyn (by decide) x y (by decide), rfl⟩
  | skipKeyPressed x | skipKeyNotPressed x | loadDelay x | waitKey x | setDelay x | setSound x | addIndex x
  | loadFontAddr x | storeBcd x | storeRegs x | loadRegs x =>
    exact ⟨_, by decide, selects_wordOfXkk (by decide) x (by decide), rfl⟩

/-- The rows that select a word that decodes are the one with the instruction's name. -/
theorem names_of_selecting_rows {w : Word} {i : Instr} (hd : decode w = .ok i) :
    (opcodeTable.filter fun r => r.selects w).map OpcodeRow.name = [i.mnemonic] := by
  have hnodup : ((opcodeTable.filter fun r => r.selects w).map OpcodeRow.name).Nodup :=
    (List.filter_sublist.map _).nodup (by decide : (opcodeTable.map OpcodeRow.name).Nodup)
  refine List.perm_singleton.mp ((List.perm_ext_iff_of_nodup hnodup (List.nodup_singleton _)).mpr fun name => ?_)
  simp only [List.mem_map, List.mem_filter, List.mem_singleton]
  constructor
  · rintro ⟨r, ⟨hr, hsel⟩, rfl⟩
    obtain ⟨j, hj, hname⟩ := decode_of_selects hr hsel
    cases hd.symm.trans hj
    exact hname.symm
  · rintro rfl
    obtain ⟨r, hr, hsel, hname⟩ := exists_row_selects_encodeWith (fieldY w) i
    exact ⟨r, ⟨hr, encodeWith_of_decode hd ▸ hsel⟩, hname⟩

/-- Settles O4: a row that selects a word would have it decode, so a decode failure has none. -/
theorem decoderAgreesWithOpcodeMap : Obligations.DecoderAgreesWithOpcodeMap := by
  intro w
  cases hd : decode w with
  | ok i => exact .inl ⟨i, rfl, names_of_selecting_rows hd⟩
  | error e =>
    obtain rfl := Machine.decode_error hd
    refine .inr ⟨rfl, List.filter_eq_nil_iff.mpr fun r hr hsel => ?_⟩
    obtain ⟨i, hi, -⟩ := decode_of_selects hr hsel
    cases hd.symm.trans hi

/-! The fields in their places (R72) -/

theorem decode_of_encodeWith {w : Word} {i : Instr} (y : Reg) (h : w = encodeWith y i) : decode w = .ok i :=
  h ▸ decode_encodeWith y i

/-- The strict skips (R79): a word of family 5 decodes where its low nibble is 0. -/
theorem decode_wordOfXyn_5 (x y : Reg) {n : Nat} (hn : n < 16) :
    decode (wordOfXyn 5 x y n) =
      if n = 0 then .ok (.skipEqReg x y) else .error (.decodeFailure (wordOfXyn 5 x y n)) := by
  simp [decode, fields_wordOfXyn _ x y hn]

theorem decode_wordOfXyn_9 (x y : Reg) {n : Nat} (hn : n < 16) :
    decode (wordOfXyn 9 x y n) =
      if n = 0 then .ok (.skipNeqReg x y) else .error (.decodeFailure (wordOfXyn 9 x y n)) := by
  simp [decode, fields_wordOfXyn _ x y hn]

/-- Settles O5: each pattern is the encoder's word, and the two strict families are read as they stand. -/
theorem fieldsSitAtTheirBits : Obligations.FieldsSitAtTheirBits := by
  intro nnn x y n kk n4
  have hn : n4.toNat = n.val := Nat.mod_eq_of_lt n.isLt
  simp only [patternNnn_eq, patternXkk_eq, patternXyn_eq, hn, BitVec.reduceToNat, ← Fin.val_eq_zero_iff,
    decode_wordOfXyn_5 x y n.isLt, decode_wordOfXyn_9 x y n.isLt, true_and]
  and_intros
  all_goals exact decode_of_encodeWith y rfl

/-! Written instructions (R80, R81) -/

theorem map_eq_ok {α β ε : Type} {f : α → β} {r : Except ε α} {b : β} (h : r.map f = .ok b) :
    ∃ a, r = .ok a ∧ b = f a := by
  cases r with
  | error e => cases h
  | ok a => cases h; exact ⟨a, rfl, rfl⟩

theorem bind_eq_ok {α β ε : Type} {f : α → Except ε β} {r : Except ε α} {b : β} (h : r.bind f = .ok b) :
    ∃ a, r = .ok a ∧ f a = .ok b := by
  cases r with
  | error e => cases h
  | ok a => exact ⟨a, rfl, h⟩

section
variable {i : Instr} {operands : List Nat}

theorem formNone_ok {j : Instr} (h : formNone j operands = .ok i) : i = j := by
  unfold formNone at h
  split at h
  · exact (Except.ok.inj h).symm
  · cases h

theorem formAddr_ok {f : Addr → Instr} (h : formAddr f operands = .ok i) : ∃ nnn, i = f nnn := by
  unfold formAddr at h
  split at h
  · obtain ⟨nnn, -, hi⟩ := map_eq_ok h
    exact ⟨nnn, hi⟩
  · cases h

theorem formRegImm_ok {f : Reg → Byte → Instr} (h : formRegImm f operands = .ok i) : ∃ x kk, i = f x kk := by
  unfold formRegImm at h
  split at h
  · obtain ⟨x, -, h⟩ := bind_eq_ok h
    obtain ⟨kk, -, hi⟩ := map_eq_ok h
    exact ⟨x, kk, hi⟩
  · cases h

theorem formRegReg_ok {f : Reg → Reg → Instr} (h : formRegReg f operands = .ok i) : ∃ x y, i = f x y := by
  unfold formRegReg at h
  split at h
  · obtain ⟨x, -, h⟩ := bind_eq_ok h
    obtain ⟨y, -, hi⟩ := map_eq_ok h
    exact ⟨x, y, hi⟩
  · cases h

theorem formReg_ok {f : Reg → Instr} (h : formReg f operands = .ok i) : ∃ x, i = f x := by
  unfold formReg at h
  split at h
  · obtain ⟨x, -, hi⟩ := map_eq_ok h
    exact ⟨x, hi⟩
  · cases h

theorem formDraw_ok {f : Reg → Reg → RowCount → Instr} (h : formDraw f operands = .ok i) : ∃ x y n, i = f x y n := by
  unfold formDraw at h
  split at h
  · obtain ⟨x, -, h⟩ := bind_eq_ok h
    obtain ⟨y, -, h⟩ := bind_eq_ok h
    obtain ⟨n, -, hi⟩ := map_eq_ok h
    exact ⟨x, y, n, hi⟩
  · cases h

theorem checkNibble_ok {k : Nat} {r : Fin 16} (h : checkNibble k = .ok r) : r.val = k := by
  unfold checkNibble at h
  split at h
  · exact congrArg Fin.val (Except.ok.inj h).symm
  · cases h

/-- A second operand of a shift is checked to be a `y`, and a shift takes no third. -/
theorem formShift_ok {f : Reg → Instr} (h : formShift f operands = .ok i) :
    ∃ x, i = f x ∧ ((∃ a, operands = [a]) ∨ ∃ a, ∃ y : Reg, operands = [a, y.val]) := by
  unfold formShift at h
  split at h
  next a =>
    obtain ⟨x, -, hi⟩ := map_eq_ok h
    exact ⟨x, hi, .inl ⟨a, rfl⟩⟩
  next a k =>
    obtain ⟨x, -, h⟩ := bind_eq_ok h
    obtain ⟨y, hy, hi⟩ := map_eq_ok h
    exact ⟨x, hi, .inr ⟨a, y, by rw [checkNibble_ok hy]⟩⟩
  next => cases h

end

/-- A written form stands for an instruction of its own name: each name's form builds that name's constructor. -/
theorem mnemonic_of_check {w : Written} {i : Instr} (h : w.check = .ok i) : i.mnemonic = w.name := by
  unfold Written.check at h
  split at h
  all_goals grind [formNone_ok, formAddr_ok, formRegImm_ok, formRegReg_ok, formReg_ok, formShift_ok, formDraw_ok,
    Instr.mnemonic]

/-- A written shift stands for a shift and has one operand, or a second one that is a `y`. -/
theorem check_of_shift_name {w : Written} {i : Instr} (h : w.check = .ok i)
    (hname : w.name = "shr" ∨ w.name = "shl") :
    ∃ x, (i = .shr x ∨ i = .shl x) ∧ ((∃ a, w.operands = [a]) ∨ ∃ a, ∃ y : Reg, w.operands = [a, y.val]) := by
  rcases hname with hname | hname
  · obtain ⟨x, hi, hops⟩ := formShift_ok (f := .shr) (by simpa [Written.check, hname] using h)
    exact ⟨x, .inl hi, hops⟩
  · obtain ⟨x, hi, hops⟩ := formShift_ok (f := .shl) (by simpa [Written.check, hname] using h)
    exact ⟨x, .inr hi, hops⟩

/-- The encoder puts the `y` it is given into the `y` field of a shift. -/
theorem fieldY_encodeWith {i : Instr} {x : Reg} (hi : i = .shr x ∨ i = .shl x) (y : Reg) :
    fieldY (encodeWith y i) = y := by
  rcases hi with rfl | rfl
  · exact fieldY_wordOfXyn (by decide) x y (by decide)
  · exact fieldY_wordOfXyn (by decide) x y (by decide)

/-- The word of a written shift with two operands has the second one in its `y` field. -/
theorem fieldY_of_written_shift {w : Written} {i : Instr} (h : w.check = .ok i)
    (hname : w.name = "shr" ∨ w.name = "shl") {a k : Nat} (hops : w.operands = [a, k]) :
    (fieldY (encodeWith w.givenY i)).val = k := by
  obtain ⟨x, hi, ⟨b, hb⟩ | ⟨b, y, hy⟩⟩ := check_of_shift_name h hname
  · simp [hops] at hb
  · obtain ⟨-, rfl⟩ : a = b ∧ k = y.val := by simpa [hops] using hy
    rw [fieldY_encodeWith hi, Written.givenY, hops]
    exact Nat.mod_eq_of_lt y.isLt

/-- Only a written shift with two operands gives the encoder a `y` that matters. -/
theorem encodeWith_givenY {w : Written} {i : Instr} (h : w.check = .ok i)
    (hw : ∀ x y, w ≠ ⟨"shr", [x, y]⟩ ∧ w ≠ ⟨"shl", [x, y]⟩) : encodeWith w.givenY i = encode i := by
  rcases encodeWith_eq_encode_or_shift w.givenY i with heq | ⟨x, hi⟩
  · exact heq
  have hname : w.name = "shr" ∨ w.name = "shl" := by
    rw [← mnemonic_of_check h]
    exact hi.imp (congrArg Instr.mnemonic) (congrArg Instr.mnemonic)
  obtain ⟨-, -, ⟨a, ha⟩ | ⟨a, y, hy⟩⟩ := check_of_shift_name h hname
  · rw [Written.givenY, ha, encode]
  · obtain ⟨hshr, hshl⟩ := hw a y.val
    rcases hname with hname | hname
    · exact absurd (congrArg₂ Written.mk hname hy) hshr
    · exact absurd (congrArg₂ Written.mk hname hy) hshl

/-- Settles O60: the word is the encoder's with the given `y`, which only a shift with two operands has. -/
theorem writtenInstructionsEncode : Obligations.WrittenInstructionsEncode := by
  intro w
  refine ⟨fun i h => ⟨encodeWith w.givenY i, ?_, decode_encodeWith _ _, ?_, encodeWith_givenY h⟩, fun e h => ?_⟩
  · rw [Written.encode, h]; rfl
  · rintro a k (rfl | rfl)
    · exact fieldY_of_written_shift h (.inl rfl) rfl
    · exact fieldY_of_written_shift h (.inr rfl) rfl
  · rw [Written.encode, h]; rfl

/-! Fixed words -/

/-- Settles O1, by running the decoder on the thirteen words. -/
theorem sampleWordsDecode : Obligations.SampleWordsDecode := by
  unfold Obligations.SampleWordsDecode
  decide

end Sys2Proof

/-! What a transaction does (spec/40_cycle.md): that it has a next state, the random input of a cycle, the cycle around a
handler, the cycles that change little or nothing, and the transactions of the host. -/

namespace Sys2Proof.Machine

/-! The stack handlers, by the stack they find (spec/42_control_flow.md R140, R142) -/

section
variable {s : State}

theorem execReturn_of_empty (h : s.sp = 0) : execReturn s = raise .stackUnderflow 0 s := if_pos h

theorem execReturn_of_nonempty (h : s.sp ≠ 0) :
    execReturn s = .next { s with pc := s.stackAt s.sp, sp := s.sp - 1 } := if_neg h

theorem execCall_of_full (h : s.sp = s.cfg.stackDepth) (nnn : Addr) :
    execCall nnn s = raise .stackOverflow (BitVec.ofNat 16 s.sp) s := if_pos h

theorem execCall_of_room (h : s.sp ≠ s.cfg.stackDepth) (nnn : Addr) :
    execCall nnn s = .next { s with sp := s.sp + 1, stack := s.stack.set s.sp s.pc, pc := zextAddr nnn } := if_neg h

end

/-! A step has a next state -/

theorem exists_unlessFault_eq_next (found : Option (FaultKind × Word)) (s run : State) :
    ∃ t, unlessFault found s run = .next t := by
  cases found with
  | none => exact ⟨_, rfl⟩
  | some fault => exact ⟨_, rfl⟩

theorem exists_keySkip_eq_next (wanted : Bool) (x : Reg) (s : State) : ∃ t, keySkip wanted x s = .next t := by
  rcases keySkip_cases wanted x s with ⟨-, -, hraise⟩ | ⟨cond, hskip⟩
  · exact ⟨_, hraise⟩
  · exact ⟨_, hskip⟩

/-- Every handler answers a next state, the faults of spec/60_exceptions.md R230 included. -/
theorem exists_exec_eq_next (i : Instr) (s : State) : ∃ t, exec i s = .next t := by
  cases i with
  | ret =>
    by_cases hempty : s.sp = 0
    · exact ⟨_, execReturn_of_empty hempty⟩
    · exact ⟨_, execReturn_of_nonempty hempty⟩
  | call nnn =>
    by_cases hfull : s.sp = s.cfg.stackDepth
    · exact ⟨_, execCall_of_full hfull nnn⟩
    · exact ⟨_, execCall_of_room hfull nnn⟩
  | skipKeyPressed x | skipKeyNotPressed x => exact exists_keySkip_eq_next _ x s
  | draw | storeBcd | storeRegs | loadRegs => exact exists_unlessFault_eq_next _ s _
  | _ => exact ⟨_, rfl⟩

theorem exists_runWord_eq_next (rnd : Byte) (s : State) (w : Word) : ∃ t, runWord rnd s w = .next t := by
  unfold runWord
  split
  · exact ⟨_, rfl⟩
  · next i _ =>
    obtain ⟨u, hexec⟩ := exists_exec_eq_next i (s.enterHandler rnd)
    exact ⟨_, by rw [hexec, finishCycle_next]⟩

theorem exists_cycle_eq_next (rnd : Byte) (s : State) : ∃ t, cycle rnd s = .next t := by
  unfold cycle
  split
  · exact ⟨_, rfl⟩
  · split
    · exact ⟨_, rfl⟩
    · split
      · exact ⟨_, rfl⟩
      · exact exists_runWord_eq_next rnd s s.wordAtPc

/-- Settles O13: of the transactions RESET alone can be without a next state, when its image does not fit. -/
theorem onlyOversizeResetHasNoNextState : Obligations.OnlyOversizeResetHasNoNextState := by
  intro s
  cases hhost : s.host with
  | nil =>
    rw [step_nil hhost]
    exact .inl (exists_cycle_eq_next _ s)
  | cons e rest =>
    rw [step_cons hhost]
    cases e with
    | cycle rnd => exact .inl (exists_cycle_eq_next rnd _)
    | keyUpdate k p => exact .inl ⟨_, rfl⟩
    | deliverKey k => exact .inl ⟨_, rfl⟩
    | ackRedraw => exact .inl ⟨_, rfl⟩
    | reset image =>
      by_cases hfit : s.cfg.programStart + image.length ≤ s.cfg.memSize
      · exact .inl ⟨_, if_pos (decide_eq_true hfit)⟩
      · exact .inr ⟨image, rest, rfl, Nat.lt_of_not_le hfit, if_neg (fun h => hfit (of_decide_eq_true h))⟩

/-! The random input -/

/-- The state in a cycle with another random input (spec/40_cycle.md R102). -/
def State.withRnd (s : State) (b : Byte) : State := { s with rnd := b }

@[simp] theorem withRnd_cfg (s : State) (b : Byte) : (s.withRnd b).cfg = s.cfg := rfl
@[simp] theorem withRnd_pix (s : State) (b : Byte) : (s.withRnd b).pix = s.pix := rfl
@[simp] theorem withRnd_V (s : State) (b : Byte) (r : Reg) : (s.withRnd b).V r = s.V r := rfl
@[simp] theorem withRnd_isPressed (s : State) (b : Byte) (k : Key) : (s.withRnd b).isPressed k = s.isPressed k := rfl

/-- The outcome with the next state, where there is one, replaced. -/
def mapNext (f : State → State) : Result → Result
  | .next s => .next (f s)
  | .fault r => .fault r
  | .refused r => .refused r

/-- A handler that does not read the random input of its cycle: another one leads to the same outcome, up to that
input. -/
def IgnoresRnd (handler : State → Result) : Prop :=
  ∀ (s : State) (b : Byte), handler (s.withRnd b) = mapNext (·.withRnd b) (handler s)

theorem ignoresRnd_next {run : State → State} (hrun : ∀ s b, run (s.withRnd b) = (run s).withRnd b) :
    IgnoresRnd fun s => .next (run s) :=
  fun s b => congrArg Host.Outcome.next (hrun s b)

theorem ignoresRnd_unlessFault {found : State → Option (FaultKind × Word)} {run : State → State}
    (hfound : ∀ s b, found (s.withRnd b) = found s) (hrun : ∀ s b, run (s.withRnd b) = (run s).withRnd b) :
    IgnoresRnd fun s => unlessFault (found s) s (run s) := by
  intro s b
  simp only [hfound]
  cases found s with
  | none => exact congrArg Host.Outcome.next (hrun s b)
  | some fault => rfl

theorem skipIf_withRnd (s : State) (b : Byte) (cond : Bool) :
    (s.withRnd b).skipIf cond = (s.skipIf cond).withRnd b := by
  cases cond with
  | false => rfl
  | true => rfl

theorem ignoresRnd_keySkip (wanted : Bool) (x : Reg) : IgnoresRnd (keySkip wanted x) := by
  intro s b
  simp only [keySkip, withRnd_cfg, withRnd_V, withRnd_isPressed, skipIf_withRnd]
  cases keyLookup s.cfg (s.V x) with
  | key k => rfl
  | absent => rfl
  | outOfRange => rfl

theorem ignoresRnd_ret : IgnoresRnd execReturn := by
  intro s b
  by_cases hempty : s.sp = 0
  · rw [execReturn_of_empty hempty, execReturn_of_empty (s := s.withRnd b) hempty]; rfl
  · rw [execReturn_of_nonempty hempty, execReturn_of_nonempty (s := s.withRnd b) hempty]; rfl

theorem ignoresRnd_call (nnn : Addr) : IgnoresRnd (execCall nnn) := by
  intro s b
  by_cases hfull : s.sp = s.cfg.stackDepth
  · rw [execCall_of_full hfull, execCall_of_full (s := s.withRnd b) hfull]; rfl
  · rw [execCall_of_room hfull, execCall_of_room (s := s.withRnd b) hfull]; rfl

theorem writeFlagged_withRnd (m : VfMode) (f g : Byte → Byte → Byte) (x y : Reg) (s : State) (b : Byte) :
    writeFlagged m f g x y (s.withRnd b) = (writeFlagged m f g x y s).withRnd b := by
  cases m with
  | latchedResultLast => rfl
  | latchedFlagLast => rfl
  | sequential => rfl

theorem drawRows_withRnd (s : State) (b : Byte) (vx vy : Nat) (rs : List Nat) (acc : Display × Bool) :
    drawRows (s.withRnd b) vx vy rs acc = drawRows s vx vy rs acc := by
  induction rs generalizing acc with
  | nil => rfl
  | cons r rs ih => exact ih _

theorem drawLatched_withRnd (x y : Reg) (n : RowCount) (s : State) (b : Byte) :
    drawLatched x y n (s.withRnd b) = (drawLatched x y n s).withRnd b := by
  simp only [drawLatched, drawRows_withRnd, withRnd_V, withRnd_pix]
  rfl

/-- One row of a sequential draw: the pixels it leaves, and VF set on a collision (spec/41_display.md R121). -/
def State.putSpriteRow (s : State) (row : Display × Bool) : State :=
  { (if row.2 then s.setV VF 1 else s) with pix := row.1 }

theorem drawRowsLive_cons (x y : Reg) (r : Nat) (rs : List Nat) (s : State) :
    drawRowsLive x y (r :: rs) s = drawRowsLive x y rs
      (s.putSpriteRow (drawSprite s.cfg s.pix (s.V x).toNat ((s.V y).toNat + r) (s.readByte (s.effAddr r)))) := rfl

theorem putSpriteRow_withRnd (s : State) (b : Byte) (row : Display × Bool) :
    (s.withRnd b).putSpriteRow row = (s.putSpriteRow row).withRnd b := by
  obtain ⟨pix, collided⟩ := row
  cases collided with
  | false => rfl
  | true => rfl

theorem drawRowsLive_withRnd (x y : Reg) (rs : List Nat) (s : State) (b : Byte) :
    drawRowsLive x y rs (s.withRnd b) = (drawRowsLive x y rs s).withRnd b := by
  induction rs generalizing s with
  | nil => rfl
  | cons r rs ih =>
    rw [drawRowsLive_cons, drawRowsLive_cons, ← ih]
    exact congrArg (drawRowsLive x y rs) (putSpriteRow_withRnd s b _)

theorem drawSequential_withRnd (x y : Reg) (n : RowCount) (s : State) (b : Byte) :
    drawSequential x y n (s.withRnd b) = (drawSequential x y n s).withRnd b := by
  have hrows := drawRowsLive_withRnd x y (List.range n.val) (s.setV VF 0) b
  exact congrArg (fun u : State => { u with dirty := true }) hrows

theorem ignoresRnd_draw (x y : Reg) (n : RowCount) : IgnoresRnd (execDraw x y n) := by
  refine ignoresRnd_unlessFault (fun _ _ => rfl) fun s b => ?_
  rw [withRnd_cfg]
  cases s.cfg.vfMode with
  | latchedResultLast => exact drawLatched_withRnd x y n s b
  | latchedFlagLast => exact drawLatched_withRnd x y n s b
  | sequential => exact drawSequential_withRnd x y n s b

theorem ignoresRnd_exec {i : Instr} (hi : ∀ x kk, i ≠ .rand x kk) : IgnoresRnd (exec i) := by
  cases i with
  | rand x kk => exact absurd rfl (hi x kk)
  | ret => exact ignoresRnd_ret
  | call nnn => exact ignoresRnd_call nnn
  | skipEqImm | skipNeqImm | skipEqReg | skipNeqReg => exact ignoresRnd_next fun s b => skipIf_withRnd s b _
  | skipKeyPressed x | skipKeyNotPressed x => exact ignoresRnd_keySkip _ x
  | addReg x y | sub x y | subn x y => exact ignoresRnd_next fun s b => writeFlagged_withRnd _ _ _ x y s b
  | shr x | shl x => exact ignoresRnd_next fun s b => writeFlagged_withRnd _ _ _ x x s b
  | draw x y n => exact ignoresRnd_draw x y n
  | storeBcd | storeRegs | loadRegs => exact ignoresRnd_unlessFault (fun _ _ => rfl) fun _ _ => rfl
  | _ => exact ignoresRnd_next fun _ _ => rfl

/-- Settles O21: no handler but rand's reads `rnd`, neither itself nor in an operation it calls. -/
theorem onlyRandReadsTheRandomInput : Obligations.OnlyRandReadsTheRandomInput := by
  intro i s t b hi h
  exact (ignoresRnd_exec hi s b).trans (congrArg (mapNext _) h)

/-! The cycle around a handler -/

/-- A cycle at a fetchable PC whose handler answers `t` (R110 to R114). -/
theorem cycle_of_exec {rnd : Byte} {s t : State} {i : Instr} (hrun : s.Running) (hfetch : s.Fetchable)
    (hd : decode s.wordAtPc = .ok i) (hexec : exec i (s.enterHandler rnd) = .next t) :
    cycle rnd s = .next (if t.fault.kind = .none then t.timerStep else { s with fault := t.fault }) := by
  rw [cycle_run hrun (fetchFault_none.mpr hfetch) hd, hexec, finishCycle_next]

/-- Settles O6: with nothing queued and with a queued CYCLE alike the step is a cycle. -/
theorem stepRunsTheDecodedInstruction : Obligations.StepRunsTheDecodedInstruction := by
  intro s t i hrun hfetch hd
  refine ⟨fun hhost hexec => ?_, fun rnd rest hhost hexec => ?_⟩
  · rw [step_nil hhost]
    exact cycle_of_exec hrun hfetch hd hexec
  · rw [step_cons hhost]
    exact cycle_of_exec (s := { s with host := rest }) hrun hfetch hd hexec

/-! Cycles that do nothing -/

/-- Settles O9: the wait makes every cycle idle, the free one of an empty queue included. -/
theorem waitingCycleChangesNothing : Obligations.WaitingCycleChangesNothing := by
  intro s rnd hwait
  have hidle (b : Byte) : cycle b s = .next s := cycle_idle (.inr hwait)
  exact ⟨hidle rnd, fun hok => by simp [cycleStatus, hok, hwait], fun hhost => (step_nil hhost).trans (hidle _)⟩

/-- Settles O10: the recorded fault makes every cycle idle, and the status reports it. -/
theorem faultedCycleChangesNothing : Obligations.FaultedCycleChangesNothing := by
  intro s rnd hfault
  have hidle (b : Byte) : cycle b s = .next s := cycle_idle (.inl hfault)
  exact ⟨hidle rnd, if_pos hfault, fun hhost => (step_nil hhost).trans (hidle _)⟩

/-! A jump to itself -/

/-- The timer step changes `tick`, DT and ST alone (spec/45_keys_timers.md R216). -/
theorem timerStep_frame (s : State) :
    s.timerStep = { s with tick := s.timerStep.tick, dt := s.timerStep.dt, st := s.timerStep.st } := by
  unfold State.timerStep
  split
  · rfl
  · rfl

/-- Where PC fits the field `nnn`, the word of R117 (c) is the jump to PC. -/
theorem decode_selfJump {pc : Word} (hpc : pc.toNat < 4096) :
    decode (0x1000#16 ||| pc) = .ok (.jump (pc.setWidth 12)) := by
  refine decode_of_encodeWith 0 (BitVec.eq_of_toNat_eq ?_)
  have hor : 4096 ||| pc.toNat = 4096 + pc.toNat := (Nat.two_pow_add_eq_or_of_lt (i := 12) hpc 1).symm
  have hnnn : (pc.setWidth 12).toNat = pc.toNat := (BitVec.toNat_setWidth 12 pc).trans (Nat.mod_eq_of_lt hpc)
  simp only [encodeWith]
  rw [toNat_wordOfNnn (by decide) (pc.setWidth 12).isLt, hnnn, BitVec.toNat_or]
  exact hor

/-- The zero extension of the low 12 bits of an address that fits them. -/
theorem zextAddr_setWidth {pc : Word} (hpc : pc.toNat < 4096) : zextAddr (pc.setWidth 12) = pc := by
  apply BitVec.eq_of_toNat_eq
  simp only [zextAddr, BitVec.toNat_setWidth]
  omega

/-- A self-jump depends on the fault register, the wait, PC, the configuration and memory alone. -/
theorem State.SelfJump.congr {s t : State} (h : s.SelfJump) (hfault : t.fault = s.fault)
    (hwait : t.waiting = s.waiting) (hpc : t.pc = s.pc) (hcfg : t.cfg = s.cfg) (hmem : t.mem = s.mem) :
    t.SelfJump := by
  have hword : t.wordAtPc = s.wordAtPc := by
    simp only [State.wordAtPc, hpc, readByte_congr hcfg hmem]
  unfold State.SelfJump State.Running at h ⊢
  rwa [hfault, hwait, hpc, hcfg, hword]

/-- A cycle of a core at a jump to itself is the timer step (R117 (c)). -/
theorem cycle_selfJump {rnd : Byte} {s : State} (h : s.SelfJump) (hmem : s.cfg.memSize ≤ 4096) :
    cycle rnd s = .next ({ s with rnd := rnd, rndIndex := s.rndIndex + 1 } : State).timerStep := by
  obtain ⟨hrun, hbounds, heven, hword⟩ := h
  have hpc : s.pc.toNat < 4096 := by omega
  have hexec : exec (.jump (s.pc.setWidth 12)) (s.enterHandler rnd) =
      .next { s with rnd := rnd, rndIndex := s.rndIndex + 1 } := by
    rw [exec, execJump, zextAddr_setWidth hpc]
    rfl
  rw [cycle_of_exec hrun ⟨fun _ => heven, hbounds⟩ (hword ▸ decode_selfJump hpc) hexec]
  exact congrArg Host.Outcome.next (if_pos hrun.1)

/-- Settles O59: the cycle is the timer step, which moves none of the state that makes the word at PC a jump to PC. -/
theorem selfJumpSpins : Obligations.SelfJumpSpins := by
  intro s hself hhost hmem
  refine ⟨_, (step_nil hhost).trans (cycle_selfJump hself hmem), ?_, ?_⟩
  · exact hself.congr (timerStep_fault _) (timerStep_waiting _) (timerStep_pc _) (timerStep_cfg _) (timerStep_mem _)
  · rw [timerStep_rnd, timerStep_rndIndex]
    exact timerStep_frame _

/-! The transactions of the host -/

@[simp] theorem isPressed_keyUpdate (s : State) (k j : Key) (p : Bool) :
    (s.keyUpdate k p).isPressed j = if j = k then p else s.isPressed j := by
  unfold State.isPressed State.keyUpdate
  by_cases h : j = k
  · subst h; simp
  · have hval : k.val ≠ j.val := fun e => h (Fin.ext e.symm)
    simp [h, hval]

/-- Settles O54: the transaction is one write to the key register file, with no test of the wait or the fault. -/
theorem keyUpdateSetsOneKey : Obligations.KeyUpdateSetsOneKey := by
  intro s k p rest hhost
  refine ⟨_, step_cons hhost, rfl, ?_, fun j hj => ?_⟩
  · exact (isPressed_keyUpdate { s with host := rest } k k p).trans (if_pos rfl)
  · exact (isPressed_keyUpdate { s with host := rest } k j p).trans (if_neg hj)

theorem deliverKey_of_waiting {s : State} (hwait : s.waiting = true) (hok : s.fault.kind = .none) (k : Key) :
    s.deliverKey k = { s.setV s.waitTarget (keyByte k) with waiting := false } := by
  simp [State.deliverKey, hwait, hok]

/-- Outside a wait and on a halted core DELIVER_KEY has no effect (R104, decision D17). -/
theorem deliverKey_eq_self {s : State} (h : s.waiting = false ∨ s.fault.kind ≠ .none) (k : Key) :
    s.deliverKey k = s := by
  rcases h with hwait | hfault
  · simp [State.deliverKey, hwait]
  · simp [State.deliverKey, hfault]

theorem toNat_keyByte (k : Key) : (keyByte k).toNat = k.val :=
  (BitVec.toNat_ofNat k.val 8).trans (Nat.mod_eq_of_lt (Nat.lt_trans k.isLt (by decide)))

/-- Settles O55: the two cases of DELIVER_KEY, and the record update that ACK_REDRAW is. -/
theorem deliverKeyAndAckRedraw : Obligations.DeliverKeyAndAckRedraw := by
  intro s k rest
  refine ⟨fun hhost hwait hok => ?_, fun hhost hidle => ?_, step_cons⟩
  · have hstep : step s = .next { s.setV s.waitTarget (keyByte k) with waiting := false, host := rest } := by
      rw [step_cons hhost]
      exact congrArg Host.Outcome.next (deliverKey_of_waiting (s := { s with host := rest }) hwait hok k)
    refine ⟨_, hstep, rfl, ?_, fun r hr => ?_⟩
    · have hV : (s.setV s.waitTarget (keyByte k)).V s.waitTarget = keyByte k := (V_setV s _ _ _).trans (if_pos rfl)
      exact (congrArg BitVec.toNat hV).trans (toNat_keyByte k)
    · exact (V_setV s s.waitTarget r _).trans (if_neg hr)
  · rw [step_cons hhost]
    exact congrArg Host.Outcome.next (deliverKey_eq_self (s := { s with host := rest }) hidle k)

end Sys2Proof.Machine

/-! What the display instructions do (spec/41_display.md). A sprite is a mask, the set of pixels its 1 bits land on: a
bit, a row and a draw each XOR their mask into the display and collide where it meets a 1. -/

namespace Sys2Proof.Machine

/-! clear-screen -/

/-- Settles O22: the handler replaces the display by the blank one. -/
theorem clearScreenClearsEveryPixel : Obligations.ClearScreenClearsEveryPixel := by
  intro s
  exact ⟨_, rfl, rfl, sized_blank s.cfg, pixel_blank s.cfg⟩

/-! Masks -/

/-- A set of pixels, by row and column. -/
abbrev PixelMask := Nat → Nat → Bool

/-- The mask meets a pixel that is 1. -/
def Hits (p : Display) (m : PixelMask) : Prop := ∃ row col, p.pixel row col = true ∧ m row col = true

/-- The pixels in an odd number of the listed masks. -/
def xorMasks (mask : Nat → PixelMask) (ks : List Nat) : PixelMask := fun row col =>
  ks.foldr (fun k acc => mask k row col ^^ acc) false

/-- No pixel is in two of the listed masks. -/
def MasksApart (mask : Nat → PixelMask) (ks : List Nat) : Prop :=
  ks.Pairwise fun j k => ∀ row col, mask j row col = true → mask k row col = false

@[simp] theorem xorMasks_nil (mask : Nat → PixelMask) (row col : Nat) : xorMasks mask [] row col = false := rfl

@[simp] theorem xorMasks_cons (mask : Nat → PixelMask) (k : Nat) (ks : List Nat) (row col : Nat) :
    xorMasks mask (k :: ks) row col = (mask k row col ^^ xorMasks mask ks row col) := rfl

/-- A pixel in none of the masks is not in their XOR. -/
theorem xorMasks_eq_false {mask : Nat → PixelMask} {ks : List Nat} {row col : Nat}
    (h : ∀ k ∈ ks, mask k row col = false) : xorMasks mask ks row col = false := by
  induction ks with
  | nil => rfl
  | cons k ks ih =>
    obtain ⟨hk, hks⟩ := List.forall_mem_cons.mp h
    rw [xorMasks_cons, hk, ih hks, Bool.xor_false]

/-- Masks that are apart XOR to their union. -/
theorem xorMasks_iff {mask : Nat → PixelMask} {ks : List Nat} (h : MasksApart mask ks) {row col : Nat} :
    xorMasks mask ks row col = true ↔ ∃ k ∈ ks, mask k row col = true := by
  induction ks with
  | nil => simp
  | cons k ks ih =>
    obtain ⟨hk, hks⟩ := List.pairwise_cons.mp h
    rw [xorMasks_cons, List.exists_mem_cons_iff, ← ih hks]
    cases hm : mask k row col with
    | false => simp
    | true => simp [xorMasks_eq_false fun j hj => hk j hj row col hm]

/-- Masks are apart where each fixes one coordinate of its pixels, counted up from `a` and wrapped, and there are no
more masks than coordinates. -/
theorem masksApart_range {mask : Nat → PixelMask} {coord : Nat → Nat → Nat} {a n w : Nat} (hn : n ≤ w)
    (h : ∀ k row col, mask k row col = true → coord row col = (a + k) % w) : MasksApart mask (List.range n) := by
  refine List.pairwise_lt_range.imp_of_mem fun {j k} hj hk hlt row col hmj => ?_
  rw [List.mem_range] at hj hk
  rw [← Bool.not_eq_true]
  intro hmk
  have hsame : a + j ≡ a + k [MOD w] := (h j row col hmj).symm.trans (h k row col hmk)
  have := (hsame.add_left_cancel' a).eq_of_lt_of_lt (by omega) (by omega)
  omega

/-- A pixel that is 1 is on the display. -/
theorem lt_of_pixel {c : Config} {p : Display} (hp : Display.sized c p = true) {row col : Nat}
    (h : p.pixel row col = true) : row < c.displayH ∧ col < c.displayW := by
  obtain ⟨hlen, hrows⟩ := sized_iff.mp hp
  have hrow : row < p.length := Nat.lt_of_not_le fun hge => by simp [Display.pixel, List.getElem?_eq_none hge] at h
  rw [Display.pixel, List.getD_eq_getElem _ _ hrow] at h
  have hcol : col < p[row].length := Nat.lt_of_not_le fun hge => by simp [List.getElem?_eq_none hge] at h
  exact ⟨hlen ▸ hrow, hrows _ (List.getElem_mem hrow) ▸ hcol⟩

theorem hits_iff {c : Config} {p : Display} (hp : Display.sized c p = true) {m : PixelMask} :
    Hits p m ↔ ∃ row < c.displayH, ∃ col < c.displayW, p.pixel row col = true ∧ m row col = true := by
  constructor
  · rintro ⟨row, col, hpix, hm⟩
    obtain ⟨hrow, hcol⟩ := lt_of_pixel hp hpix
    exact ⟨row, hrow, col, hcol, hpix, hm⟩
  · rintro ⟨row, -, col, -, hhit⟩
    exact ⟨row, col, hhit⟩

/-- Displays of one size are equal where their pixels are. -/
theorem display_ext {c : Config} {p q : Display} (hp : Display.sized c p = true) (hq : Display.sized c q = true)
    (h : ∀ row col, p.pixel row col = q.pixel row col) : p = q := by
  obtain ⟨hpl, hpr⟩ := sized_iff.mp hp
  obtain ⟨hql, hqr⟩ := sized_iff.mp hq
  refine List.ext_getElem (hpl.trans hql.symm) fun row hr hr' => ?_
  have hlen : p[row].length = q[row].length :=
    (hpr _ (List.getElem_mem hr)).trans (hqr _ (List.getElem_mem hr')).symm
  refine List.ext_getElem hlen fun col hc hc' => ?_
  simpa [Display.pixel, hr, hr', hc, hc'] using h row col

/-! Stamps -/

/-- The display `q` is `p` with the mask XORed into it, and `collided` says that the mask met a pixel that was 1. -/
structure Stamps (p : Display) (m : PixelMask) (q : Display) (collided : Prop) : Prop where
  pixel : ∀ row col, q.pixel row col = (p.pixel row col ^^ m row col)
  hits : collided ↔ Hits p m

theorem Stamps.inverted_iff {p q : Display} {m : PixelMask} {collided : Prop} (h : Stamps p m q collided)
    (row col : Nat) : q.pixel row col = !p.pixel row col ↔ m row col = true := by
  rw [h.pixel]
  cases p.pixel row col <;> simp

/-- The mask inverts the pixels it meets, so it meets one that is 1 exactly when a pixel goes from 1 to 0. -/
theorem Stamps.collided_iff {c : Config} {p q : Display} {m : PixelMask} {collided : Prop}
    (h : Stamps p m q collided) (hp : Display.sized c p = true) :
    collided ↔ ∃ row < c.displayH, ∃ col < c.displayW, p.pixel row col = true ∧ q.pixel row col = false := by
  have hpix (row col : Nat) : p.pixel row col = true ∧ q.pixel row col = false ↔
      p.pixel row col = true ∧ m row col = true :=
    and_congr_right fun hset => by simp [h.pixel, hset]
  simp only [h.hits, hits_iff hp, hpix]

/-- The stamps of a list one after the other, each on the display the one before left; any collision is kept. -/
def stampEach (f : Nat → Display → Display × Bool) : List Nat → Display × Bool → Display × Bool
  | [], acc => acc
  | k :: ks, (p, any) => stampEach f ks ((f k p).1, any || (f k p).2)

/-- A collision before the stamps is kept beside theirs. -/
theorem stampEach_any (f : Nat → Display → Display × Bool) (ks : List Nat) (p : Display) (any : Bool) :
    stampEach f ks (p, any) = ((stampEach f ks (p, false)).1, any || (stampEach f ks (p, false)).2) := by
  induction ks generalizing p any with
  | nil => simp [stampEach]
  | cons k ks ih => rw [stampEach, stampEach, ih, ih _ (false || _), Bool.false_or, Bool.or_assoc]

/-- The stamp keeps a display's size and XORs its mask into it. -/
def StampsOn (c : Config) (m : PixelMask) (f : Display → Display × Bool) : Prop :=
  ∀ p, Display.sized c p = true → Display.sized c (f p).1 = true ∧ Stamps p m (f p).1 ((f p).2 = true)

section
variable {c : Config} {f : Nat → Display → Display × Bool} {mask : Nat → PixelMask}

/-- Stamps one after the other XOR all their masks into the display, the ones that overlap included. -/
theorem pixel_stampEach (hf : ∀ k, StampsOn c (mask k) (f k)) (ks : List Nat) {p : Display}
    (hp : Display.sized c p = true) (any : Bool) (row col : Nat) :
    (stampEach f ks (p, any)).1.pixel row col = (p.pixel row col ^^ xorMasks mask ks row col) := by
  induction ks generalizing p any with
  | nil => simp [stampEach]
  | cons k ks ih =>
    obtain ⟨hsized, hstamp⟩ := hf k p hp
    rw [stampEach, ih hsized, hstamp.pixel, Bool.xor_assoc, xorMasks_cons]

/-- A mask apart from the rest meets the pixels it was to meet, whatever the rest inverts, and conversely. -/
theorem hits_cons {k : Nat} {ks : List Nat} (hapart : MasksApart mask (k :: ks)) {p q : Display} {collided : Prop}
    (hq : Stamps p (mask k) q collided) :
    Hits p (xorMasks mask (k :: ks)) ↔ Hits p (mask k) ∨ Hits q (xorMasks mask ks) := by
  obtain ⟨hk, -⟩ := List.pairwise_cons.mp hapart
  simp only [Hits, ← exists_or]
  refine exists_congr fun row => exists_congr fun col => ?_
  rw [hq.pixel, xorMasks_cons]
  cases hm : mask k row col with
  | false => simp
  | true => simp [xorMasks_eq_false fun j hj => hk j hj row col hm]

/-- Stamps apart from each other collide where their union meets a pixel of the display before the first. -/
theorem collided_stampEach (hf : ∀ k, StampsOn c (mask k) (f k)) {ks : List Nat} (hapart : MasksApart mask ks)
    {p : Display} (hp : Display.sized c p = true) (any : Bool) :
    (stampEach f ks (p, any)).2 = true ↔ any = true ∨ Hits p (xorMasks mask ks) := by
  induction ks generalizing p any with
  | nil => simp [stampEach, Hits]
  | cons k ks ih =>
    obtain ⟨hsized, hstamp⟩ := hf k p hp
    rw [stampEach, ih (List.pairwise_cons.mp hapart).2 hsized, hits_cons hapart hstamp, Bool.or_eq_true,
      hstamp.hits, or_assoc]

theorem stamps_stampEach (hf : ∀ k, StampsOn c (mask k) (f k)) {ks : List Nat} (hapart : MasksApart mask ks)
    {p : Display} (hp : Display.sized c p = true) :
    Stamps p (xorMasks mask ks) (stampEach f ks (p, false)).1 ((stampEach f ks (p, false)).2 = true) where
  pixel := pixel_stampEach hf ks hp false
  hits := by simp [collided_stampEach hf hapart hp]

end

/-! The row compositor -/

theorem displayW_ge_of_wf {c : Config} (h : c.wf = true) : 8 ≤ c.displayW := by
  simp only [Config.wf, Bool.and_eq_true, decide_eq_true_eq] at h
  omega

theorem displayH_pos_of_wf {c : Config} (h : c.wf = true) : 0 < c.displayH := by
  simp only [Config.wf, Bool.and_eq_true, decide_eq_true_eq] at h
  omega

/-- The pixel the bit `b[7-k]` lands on, where the bit is 1 (R122, R123). -/
def bitMask (c : Config) (row cx : Nat) (b : Byte) (k : Nat) : PixelMask := fun r col =>
  b.getLsbD (7 - k) && decide (r = row ∧ col = (cx + k) % c.displayW)

/-- The pixels under the 1 bits of a sprite byte (R122, R123). -/
def spriteMask (c : Config) (cx cy : Nat) (b : Byte) : PixelMask :=
  xorMasks (bitMask c (cy % c.displayH) cx b) (List.range 8)

/-- The one pixel of `drawBits` for one k. -/
def stampBit (c : Config) (row cx : Nat) (b : Byte) (k : Nat) (p : Display) : Display × Bool :=
  if b.getLsbD (7 - k) then (p.invert row ((cx + k) % c.displayW), p.pixel row ((cx + k) % c.displayW)) else (p, false)

theorem drawBits_eq_stampEach (c : Config) (row cx : Nat) (b : Byte) (ks : List Nat) (acc : Display × Bool) :
    drawBits c row cx b ks acc = stampEach (stampBit c row cx b) ks acc := by
  induction ks generalizing acc with
  | nil => rfl
  | cons k ks ih =>
    simp only [drawBits, stampEach, stampBit]
    split
    · exact ih _
    · rw [ih, Bool.or_false]

theorem stampBit_stampsOn {c : Config} (hwf : c.wf = true) {row : Nat} (hrow : row < c.displayH) (cx : Nat) (b : Byte)
    (k : Nat) : StampsOn c (bitMask c row cx b k) (stampBit c row cx b k) := by
  intro p hp
  have hcol : (cx + k) % c.displayW < c.displayW := Nat.mod_lt _ (by have := displayW_ge_of_wf hwf; omega)
  unfold stampBit
  split
  · next hbit =>
    refine ⟨sized_invert hp _ _, fun r col => ?_, by simp [Hits, bitMask, hbit]⟩
    rw [pixel_invert hp hrow hcol]
    split
    · next hat => simp [bitMask, hbit, hat]
    · next hat => simp [bitMask, hat]
  · next hbit => exact ⟨hp, fun r col => by simp [bitMask, hbit], by simp [Hits, bitMask, hbit]⟩

/-- The 8 columns of a sprite row are distinct (R8, R122). -/
theorem bitMasks_apart {c : Config} (hwf : c.wf = true) (row cx : Nat) (b : Byte) :
    MasksApart (bitMask c row cx b) (List.range 8) := by
  refine masksApart_range (coord := fun _ col => col) (a := cx) (displayW_ge_of_wf hwf) fun k r col hm => ?_
  simp only [bitMask, Bool.and_eq_true, decide_eq_true_eq] at hm
  exact hm.2.2

theorem spriteMask_iff {c : Config} (hwf : c.wf = true) {cx cy : Nat} {b : Byte} {row col : Nat} :
    spriteMask c cx cy b row col = true ↔
      ∃ k < 8, row = cy % c.displayH ∧ col = (cx + k) % c.displayW ∧ b.getLsbD (7 - k) = true := by
  simp [spriteMask, xorMasks_iff (bitMasks_apart hwf _ cx b), bitMask, and_assoc, and_comm]

theorem drawSprite_stampsOn {c : Config} (hwf : c.wf = true) (cx cy : Nat) (b : Byte) :
    StampsOn c (spriteMask c cx cy b) fun p => drawSprite c p cx cy b := by
  intro p hp
  have hrow : cy % c.displayH < c.displayH := Nat.mod_lt _ (displayH_pos_of_wf hwf)
  refine ⟨sized_drawSprite c p cx cy b hp, ?_⟩
  simp only [drawSprite, drawBits_eq_stampEach]
  exact stamps_stampEach (stampBit_stampsOn hwf hrow cx b) (bitMasks_apart hwf _ cx b) hp

/-- Settles O23: the compositor is the stamp of its 8 bits, and their pixels are distinct. -/
theorem spriteRowIsXored : Obligations.SpriteRowIsXored := by
  intro c p cx cy b hwf hp
  obtain ⟨hsized, hstamp⟩ := drawSprite_stampsOn hwf cx cy b p hp
  exact ⟨hsized, fun row col _ _ => (hstamp.inverted_iff row col).trans (spriteMask_iff hwf), hstamp.collided_iff hp⟩

/-! The rows of a draw in the latched modes -/

/-- The pixels under the row r of the sprite at I, drawn at column `vx` and row `vy` (R121). -/
def State.rowMask (s : State) (vx vy r : Nat) : PixelMask :=
  spriteMask s.cfg vx (vy + r) (s.readByte (s.effAddr r))

/-- The one row of `drawRows` for one r. -/
def State.stampRow (s : State) (vx vy r : Nat) (p : Display) : Display × Bool :=
  drawSprite s.cfg p vx (vy + r) (s.readByte (s.effAddr r))

theorem drawRows_eq_stampEach (s : State) (vx vy : Nat) (rs : List Nat) (acc : Display × Bool) :
    drawRows s vx vy rs acc = stampEach (s.stampRow vx vy) rs acc := by
  induction rs generalizing acc with
  | nil => rfl
  | cons r rs ih => exact ih _

/-- A collision before the rows is kept beside theirs. -/
theorem drawRows_any (s : State) (vx vy : Nat) (rs : List Nat) (p : Display) (any : Bool) :
    drawRows s vx vy rs (p, any) =
      ((drawRows s vx vy rs (p, false)).1, any || (drawRows s vx vy rs (p, false)).2) := by
  rw [drawRows_eq_stampEach, drawRows_eq_stampEach, stampEach_any]

/-- The rows depend on the configuration, I and memory alone. -/
theorem drawRows_congr {s t : State} (hcfg : t.cfg = s.cfg) (hi : t.i = s.i) (hmem : t.mem = s.mem) (vx vy : Nat)
    (rs : List Nat) (acc : Display × Bool) : drawRows t vx vy rs acc = drawRows s vx vy rs acc := by
  have hrow : t.stampRow vx vy = s.stampRow vx vy := by
    funext r p
    simp only [State.stampRow, State.effAddr, hcfg, hi, readByte_congr hcfg hmem]
  rw [drawRows_eq_stampEach, drawRows_eq_stampEach, hrow]

section
variable {s : State} (vx vy : Nat)

theorem stampRow_stampsOn (hwf : s.cfg.wf = true) (r : Nat) :
    StampsOn s.cfg (s.rowMask vx vy r) (s.stampRow vx vy r) :=
  drawSprite_stampsOn hwf vx (vy + r) (s.readByte (s.effAddr r))

theorem rowMask_row (hwf : s.cfg.wf = true) {r row col : Nat} (h : s.rowMask vx vy r row col = true) :
    row = (vy + r) % s.cfg.displayH := by
  obtain ⟨k, -, hrow, -⟩ := (spriteMask_iff hwf).mp h
  exact hrow

/-- No two rows of a sprite as high as the display or lower share a display row. -/
theorem rowMasks_apart (hwf : s.cfg.wf = true) {n : Nat} (hn : n ≤ s.cfg.displayH) :
    MasksApart (s.rowMask vx vy) (List.range n) :=
  masksApart_range (coord := fun row _ => row) (a := vy) hn fun _ _ _ hm => rowMask_row vx vy hwf hm

end

/-- The pixels under an odd number of the 1 bits of a draw at the coordinates the registers hold. -/
def State.drawMask (s : State) (x y : Reg) (n : RowCount) : PixelMask :=
  xorMasks (s.rowMask (s.V x).toNat (s.V y).toNat) (List.range n.val)

theorem drawMask_iff {s : State} (hwf : s.cfg.wf = true) (x y : Reg) {n : RowCount}
    (hn : n.val ≤ s.cfg.displayH) {row col : Nat} :
    s.drawMask x y n row col = true ↔ s.SpriteBit (s.V x).toNat (s.V y).toNat n.val row col := by
  simp [State.drawMask, xorMasks_iff (rowMasks_apart _ _ hwf hn), State.rowMask, spriteMask_iff hwf, State.SpriteBit,
    State.effAddr]

theorem drawLatched_pix (x y : Reg) (n : RowCount) (s : State) :
    (drawLatched x y n s).pix = (drawRows s (s.V x).toNat (s.V y).toNat (List.range n.val) (s.pix, false)).1 := rfl

theorem drawLatched_VF (x y : Reg) (n : RowCount) (s : State) :
    (drawLatched x y n s).V VF =
      flagByte (drawRows s (s.V x).toNat (s.V y).toNat (List.range n.val) (s.pix, false)).2 :=
  (V_setV s VF VF _).trans (if_pos rfl)

theorem flagByte_zero_or_one (b : Bool) : flagByte b = 0 ∨ flagByte b = 1 := by cases b <;> decide

theorem flagByte_eq_one_iff {b : Bool} : flagByte b = 1 ↔ b = true := by cases b <;> decide

theorem drawLatched_VF_zero_or_one (x y : Reg) (n : RowCount) (s : State) :
    (drawLatched x y n s).V VF = 0 ∨ (drawLatched x y n s).V VF = 1 := by
  rw [drawLatched_VF]
  exact flagByte_zero_or_one _

section
variable {s : State} (hwf : s.cfg.wf = true) (hp : Display.sized s.cfg s.pix = true) (x y : Reg)
include hwf hp

/-- A draw XORs its mask into the display, rows that overlap included. -/
theorem pixel_drawLatched (n : RowCount) (row col : Nat) :
    (drawLatched x y n s).pix.pixel row col = (s.pix.pixel row col ^^ s.drawMask x y n row col) := by
  rw [drawLatched_pix, drawRows_eq_stampEach]
  exact pixel_stampEach (stampRow_stampsOn _ _ hwf) _ hp false row col

/-- A draw of n ≤ `DISPLAY_H` rows stamps its mask, and VF is the collision. -/
theorem stamps_drawLatched {n : RowCount} (hn : n.val ≤ s.cfg.displayH) :
    Stamps s.pix (s.drawMask x y n) (drawLatched x y n s).pix ((drawLatched x y n s).V VF = 1) := by
  rw [drawLatched_pix, drawLatched_VF, flagByte_eq_one_iff, drawRows_eq_stampEach]
  exact stamps_stampEach (stampRow_stampsOn _ _ hwf) (rowMasks_apart _ _ hwf hn) hp

end

/-! The rows of a draw in the mode `sequential` -/

theorem putSpriteRow_VF (s : State) (row : Display × Bool) :
    (s.putSpriteRow row).V VF = 1 ∨ (s.putSpriteRow row).V VF = s.V VF := by
  obtain ⟨pix, collided⟩ := row
  cases collided with
  | false => exact .inr rfl
  | true => exact .inl ((V_setV s VF VF 1).trans (if_pos rfl))

theorem putSpriteRow_V_other (s : State) (row : Display × Bool) {r : Reg} (hr : r ≠ VF) :
    (s.putSpriteRow row).V r = s.V r := by
  obtain ⟨pix, collided⟩ := row
  cases collided with
  | false => rfl
  | true => exact (V_setV s VF r 1).trans (if_neg hr)

theorem putSpriteRow_putSpriteRow (s : State) (d e : Display × Bool) :
    (s.putSpriteRow d).putSpriteRow e = s.putSpriteRow (e.1, d.2 || e.2) := by
  obtain ⟨p, a⟩ := d
  obtain ⟨q, b⟩ := e
  cases b with
  | false => cases a <;> rfl
  | true =>
    cases a with
    | false => rfl
    | true => exact congrArg (fun u : State => { u with pix := q }) (setV_setV_same s VF 1 1)

/-- The rows of a sequential draw set VF to 1 or leave it. -/
theorem drawRowsLive_VF (x y : Reg) (rs : List Nat) (s : State) :
    (drawRowsLive x y rs s).V VF = 1 ∨ (drawRowsLive x y rs s).V VF = s.V VF := by
  induction rs generalizing s with
  | nil => exact .inr rfl
  | cons r rs ih =>
    rw [drawRowsLive_cons]
    rcases ih (s.putSpriteRow _) with hone | hkept
    · exact .inl hone
    · rw [hkept]
      exact putSpriteRow_VF s _

@[simp] theorem putSpriteRow_cfg (s : State) (row : Display × Bool) : (s.putSpriteRow row).cfg = s.cfg := by
  unfold State.putSpriteRow; split <;> rfl

@[simp] theorem putSpriteRow_i (s : State) (row : Display × Bool) : (s.putSpriteRow row).i = s.i := by
  unfold State.putSpriteRow; split <;> rfl

@[simp] theorem putSpriteRow_mem (s : State) (row : Display × Bool) : (s.putSpriteRow row).mem = s.mem := by
  unfold State.putSpriteRow; split <;> rfl

@[simp] theorem putSpriteRow_pix (s : State) (row : Display × Bool) : (s.putSpriteRow row).pix = row.1 := rfl

/-- With neither coordinate register VF the collisions of a sequential draw move no later row: its rows are the latched
ones (R121, R125). -/
theorem drawRowsLive_eq_putSpriteRow {x y : Reg} (hx : x ≠ VF) (hy : y ≠ VF) (rs : List Nat) (s : State) :
    drawRowsLive x y rs s = s.putSpriteRow (drawRows s (s.V x).toNat (s.V y).toNat rs (s.pix, false)) := by
  induction rs generalizing s with
  | nil => rfl
  | cons r rs ih =>
    rw [drawRowsLive_cons, ih, putSpriteRow_V_other s _ hx, putSpriteRow_V_other s _ hy, putSpriteRow_pix,
      drawRows_congr (putSpriteRow_cfg s _) (putSpriteRow_i s _) (putSpriteRow_mem s _), putSpriteRow_putSpriteRow,
      ← drawRows_any, ← Bool.false_or (drawSprite ..).2]
    rfl

theorem drawSequential_eq_drawLatched {x y : Reg} (hx : x ≠ VF) (hy : y ≠ VF) (n : RowCount) (s : State) :
    drawSequential x y n s = drawLatched x y n s := by
  have hVx : (s.setV VF 0).V x = s.V x := (V_setV s VF x 0).trans (if_neg hx)
  have hVy : (s.setV VF 0).V y = s.V y := (V_setV s VF y 0).trans (if_neg hy)
  simp only [drawSequential, drawLatched, drawRowsLive_eq_putSpriteRow hx hy, hVx, hVy, setV_pix,
    drawRows_congr (t := s.setV VF 0) (s := s) rfl rfl rfl]
  generalize drawRows s (s.V x).toNat (s.V y).toNat (List.range n.val) (s.pix, false) = rows
  obtain ⟨pix, collided⟩ := rows
  cases collided with
  | false => rfl
  | true => exact congrArg (fun u : State => { u with pix := pix, dirty := true }) (setV_setV_same s VF 0 1)

/-! The draw handler -/

section
variable {x y : Reg} {n : RowCount} {s : State}

/-- The bounds check of a draw passes (R57, R121). -/
theorem boundsFault_draw_none (h : n = 0 ∨ s.i.toNat + n.val ≤ s.cfg.memSize) :
    boundsFault s.cfg (s.effAddr 0) n.val = none :=
  boundsFault_none.mpr (h.symm.imp id (congrArg Fin.val))

theorem exec_draw_sequential (h : n = 0 ∨ s.i.toNat + n.val ≤ s.cfg.memSize) (hmode : s.cfg.vfMode = .sequential) :
    exec (.draw x y n) s = .next (drawSequential x y n s) := by
  rw [exec, execDraw, boundsFault_draw_none h, hmode]
  rfl

theorem exec_draw_latched (h : n = 0 ∨ s.i.toNat + n.val ≤ s.cfg.memSize) (hmode : s.cfg.vfMode ≠ .sequential) :
    exec (.draw x y n) s = .next (drawLatched x y n s) := by
  rw [exec, execDraw, boundsFault_draw_none h]
  cases hm : s.cfg.vfMode with
  | sequential => exact absurd hm hmode
  | latchedResultLast => rfl
  | latchedFlagLast => rfl

/-- With neither coordinate register VF a draw is the latched one in every mode (R125). -/
theorem exec_draw_of_ne_VF (h : n = 0 ∨ s.i.toNat + n.val ≤ s.cfg.memSize) (hx : x ≠ VF) (hy : y ≠ VF) :
    exec (.draw x y n) s = .next (drawLatched x y n s) := by
  by_cases hmode : s.cfg.vfMode = .sequential
  · rw [exec_draw_sequential h hmode, drawSequential_eq_drawLatched hx hy]
  · exact exec_draw_latched h hmode

theorem exec_draw_outOfBounds (hn : n ≠ 0) (h : s.cfg.memSize < s.i.toNat + n.val) :
    exec (.draw x y n) s = raise .memOutOfBounds (BitVec.ofNat 16 (max s.i.toNat s.cfg.memSize)) s := by
  have hout : ¬ (s.effAddr 0 + n.val ≤ s.cfg.memSize ∨ n.val = 0) := by
    rintro (hle | hzero)
    · exact absurd hle (Nat.not_le.mpr h)
    · exact hn (Fin.ext hzero)
  rw [exec, execDraw, boundsFault_eq, if_neg hout]
  rfl

end

/-- Settles O24: in the latched modes a draw is the stamp of its rows, and no two of n ≤ `DISPLAY_H` rows overlap. -/
theorem drawXorsTheSprite : Obligations.DrawXorsTheSprite := by
  intro x y n s hs hmode hn hmem
  obtain ⟨hframe, hkeeps, -⟩ := drawLatched_frame x y n s
  have hstamp := stamps_drawLatched hs.cfg_wf hs.pix_sized x y hn
  have hbit (row col : Nat) := drawMask_iff hs.cfg_wf x y hn (row := row) (col := col)
  refine ⟨_, exec_draw_latched hmem hmode, hframe, hkeeps,
    fun row col _ _ => (hstamp.inverted_iff row col).trans (hbit row col), ?_⟩
  rcases drawLatched_VF_zero_or_one x y n s with hzero | hone
  · have hnone : ¬ Hits s.pix (s.drawMask x y n) := mt hstamp.hits.mpr (by rw [hzero]; decide)
    exact .inr ⟨hzero, fun row col _ _ hpix hm => hnone ⟨row, col, hpix, (hbit row col).mpr hm⟩⟩
  · obtain ⟨row, hrow, col, hcol, hpix, hm⟩ := (hits_iff hs.pix_sized).mp (hstamp.hits.mp hone)
    exact .inl ⟨hone, row, hrow, col, hcol, hpix, (hbit row col).mp hm⟩

theorem drawSequential_VF_zero_or_one (x y : Reg) (n : RowCount) (s : State) :
    (drawSequential x y n s).V VF = 0 ∨ (drawSequential x y n s).V VF = 1 := by
  have hreset : (s.setV VF 0).V VF = 0 := (V_setV s VF VF 0).trans (if_pos rfl)
  exact hreset ▸ (drawRowsLive_VF x y (List.range n.val) (s.setV VF 0)).symm

/-- The coordinate register VF reads as 0 once VF was reset. -/
theorem toNat_V_setV_VF_zero (s : State) (r : Reg) :
    ((s.setV VF 0).V r).toNat = if r = VF then 0 else (s.V r).toNat := by
  rw [V_setV, apply_ite BitVec.toNat]
  rfl

theorem drawSequential_one_pix (x y : Reg) (s : State) :
    (drawSequential x y 1 s).pix =
      (drawSprite s.cfg s.pix (if x = VF then 0 else (s.V x).toNat) (if y = VF then 0 else (s.V y).toNat)
        (s.readByte s.i.toNat)).1 := by
  rw [← toNat_V_setV_VF_zero, ← toNat_V_setV_VF_zero]
  rfl

/-- Settles O25: each mode by the frame of its draw, and the fault by the bounds check before any write. -/
theorem drawCompletesOrFaults : Obligations.DrawCompletesOrFaults := by
  intro x y n s
  refine ⟨fun hmem => ?_, exec_draw_outOfBounds, fun hn hmode hmem => ?_⟩
  · by_cases hmode : s.cfg.vfMode = .sequential
    · obtain ⟨hframe, hkeeps, -⟩ := drawSequential_frame x y n s
      refine ⟨_, exec_draw_sequential hmem hmode, hframe, drawSequential_VF_zero_or_one x y n s, hkeeps, ?_⟩
      rintro rfl
      exact ⟨rfl, (V_setV s VF VF 0).trans (if_pos rfl)⟩
    · obtain ⟨hframe, hkeeps, -⟩ := drawLatched_frame x y n s
      refine ⟨_, exec_draw_latched hmem hmode, hframe, drawLatched_VF_zero_or_one x y n s, hkeeps, ?_⟩
      rintro rfl
      exact ⟨rfl, drawLatched_VF x y 0 s⟩
  · subst hn
    exact ⟨_, exec_draw_sequential (.inr hmem) hmode, drawSequential_one_pix x y s⟩

section
variable {x y : Reg} (hx : x ≠ VF) (hy : y ≠ VF) {s : State}
include hx hy

/-- A draw writes neither I, nor memory, nor its coordinates. -/
theorem drawMask_drawLatched (n : RowCount) : (drawLatched x y n s).drawMask x y n = s.drawMask x y n := by
  obtain ⟨-, hkeeps, -⟩ := drawLatched_frame x y n s
  unfold State.drawMask
  rw [hkeeps x hx, hkeeps y hy]
  rfl

variable (hwf : s.cfg.wf = true) (hp : Display.sized s.cfg s.pix = true)
include hwf hp

theorem drawLatched_twice_pix (n : RowCount) : (drawLatched x y n (drawLatched x y n s)).pix = s.pix := by
  obtain ⟨-, -, hsize⟩ := drawLatched_frame x y n s
  obtain ⟨-, -, hsize'⟩ := drawLatched_frame x y n (drawLatched x y n s)
  refine display_ext (hsize' (hsize hp)) hp fun row col => ?_
  rw [pixel_drawLatched (s := drawLatched x y n s) hwf (hsize hp), drawMask_drawLatched hx hy,
    pixel_drawLatched hwf hp, Bool.xor_assoc, Bool.xor_self, Bool.xor_false]

/-- The second draw turns to 0 what is 1 before it and 0 in the display it restores. -/
theorem drawLatched_twice_VF {n : RowCount} (hn : n.val ≤ s.cfg.displayH) :
    (drawLatched x y n (drawLatched x y n s)).V VF = 1 ↔
      ∃ row < s.cfg.displayH, ∃ col < s.cfg.displayW,
        s.pix.pixel row col = false ∧ (drawLatched x y n s).pix.pixel row col = true := by
  obtain ⟨-, -, hsize⟩ := drawLatched_frame x y n s
  have hsecond := stamps_drawLatched (s := drawLatched x y n s) hwf (hsize hp) x y hn
  rw [drawLatched_twice_pix hx hy hwf hp] at hsecond
  simpa only [and_comm] using hsecond.collided_iff (hsize hp)

end

/-- Settles O26: both draws XOR the same masks, which cancel, and the second collides where the first set a pixel. -/
theorem drawTwiceRestoresThePixels : Obligations.DrawTwiceRestoresThePixels := by
  intro x y n s t u hs hx hy hmem ht hu
  obtain rfl := Host.Outcome.next.inj ((exec_draw_of_ne_VF hmem hx hy).symm.trans ht)
  obtain rfl := Host.Outcome.next.inj ((exec_draw_of_ne_VF (s := drawLatched x y n s) hmem hx hy).symm.trans hu)
  exact ⟨drawLatched_twice_pix hx hy hs.cfg_wf hs.pix_sized n, drawLatched_twice_VF hx hy hs.cfg_wf hs.pix_sized⟩

end Sys2Proof.Machine

/-! What the control transfers and the skips of spec/42_control_flow.md do: the target of a jump and the fetch at it, the
call stack, and the conditions of the skips. -/

namespace Sys2Proof.Machine

/-! Jump targets -/

theorem toNat_zextAddr (nnn : Addr) : (zextAddr nnn).toNat = nnn.toNat :=
  BitVec.toNat_setWidth_of_le (by decide)

theorem toNat_zextByte (b : Byte) : (zextByte b).toNat = b.toNat :=
  BitVec.toNat_setWidth_of_le (by decide)

/-- The sum of jump-offset is exact: it is at most 0xFFF + 0xFF (spec/42_control_flow.md R149). -/
theorem toNat_zextAddr_add_zextByte (nnn : Addr) (b : Byte) :
    (zextAddr nnn + zextByte b).toNat = nnn.toNat + b.toNat := by
  have := nnn.isLt
  have := b.isLt
  rw [BitVec.toNat_add_of_lt, toNat_zextAddr, toNat_zextByte]
  rw [toNat_zextAddr, toNat_zextByte]
  omega

theorem toNat_zextAddr_add_zextByte_le (nnn : Addr) (b : Byte) : (zextAddr nnn + zextByte b).toNat ≤ 0x10FE := by
  have := nnn.isLt
  have := b.isLt
  rw [toNat_zextAddr_add_zextByte]
  omega

theorem fetchFault_of_odd {s : State} (hpolicy : s.cfg.fetchAlign = .fault) (hodd : s.pc.toNat % 2 = 1) :
    s.fetchFault = some (.misalignedFetch, s.pc) := if_pos ⟨hpolicy, hodd⟩

theorem fetchFault_ne_none_of_past_end {s : State} (hpast : s.cfg.memSize ≤ s.pc.toNat + 1) : s.fetchFault ≠ none := by
  intro hnone
  obtain ⟨-, hbounds⟩ := fetchFault_none.mp hnone
  exact Nat.not_lt.mpr hpast hbounds

/-- Settles O27: the targets are exact sums, and a handler leaves the configuration that the next fetch reads. -/
theorem jumpsSetPc : Obligations.JumpsSetPc := by
  intro nnn s
  refine ⟨decode_of_encodeWith 0 (patternNnn_eq 0x1 nnn), decode_of_encodeWith 0 (patternNnn_eq 0xB nnn),
    ⟨_, rfl, rfl, toNat_zextAddr nnn⟩, ⟨_, rfl, rfl, toNat_zextAddr_add_zextByte nnn _, ?_⟩, fun t i _ h => ?_⟩
  · exact toNat_zextAddr_add_zextByte_le nnn (s.V 0)
  · rw [← effect_cfg (exec_effect h)]
    exact ⟨fetchFault_of_odd, fetchFault_ne_none_of_past_end⟩

/-! The call stack (spec/10_state.md R26, R27) -/

section
variable {s t : State} {k : Nat} {a : Word}

theorem stackAt_of_set (h : t.stack = s.stack.set k a) (hk : k < s.stack.length) : t.stackAt (k + 1) = a := by
  simp [State.stackAt, h, hk]

theorem stackAt_of_set_ne (h : t.stack = s.stack.set k a) {j : Nat} (hj : 1 ≤ j) (hne : j ≠ k + 1) :
    t.stackAt j = s.stackAt j := by
  have hentry : k ≠ j - 1 := by omega
  simp [State.stackAt, h, hentry]

/-- The entry a call writes exists where there is room on the stack. -/
theorem State.Inv.sp_lt_length (hs : s.Inv) (hroom : s.sp < s.cfg.stackDepth) : s.sp < s.stack.length :=
  hs.stack_length ▸ hroom

end

/-- Settles O28: the two cases of each stack handler; the entry pushed is one of the `STACK_DEPTH` entries. -/
theorem callPushesAndReturnPops : Obligations.CallPushesAndReturnPops := by
  intro nnn s hs
  refine ⟨fun hroom => ?_, fun hfull => execCall_of_full hfull nnn, fun hpos => ?_, execReturn_of_empty⟩
  · exact ⟨_, execCall_of_room (Nat.ne_of_lt hroom) nnn, rfl, toNat_zextAddr nnn, rfl,
      stackAt_of_set rfl (hs.sp_lt_length hroom), fun _ => stackAt_of_set_ne rfl⟩
  · exact ⟨_, execReturn_of_nonempty (Nat.ne_of_gt hpos), rfl, rfl, Nat.sub_add_cancel hpos⟩

/-! A call and the return at its target -/

/-- A step with nothing queued whose handler raises no fault. -/
theorem step_of_exec {s t : State} {i : Instr} (hhost : s.host = []) (hrun : s.Running) (hfetch : s.Fetchable)
    (hd : decode s.wordAtPc = .ok i) (hexec : exec i (s.enterHandler (Config.randomByte s.rndIndex)) = .next t)
    (hok : t.fault.kind = .none) : step s = .next t.timerStep := by
  rw [step_nil hhost, cycle_of_exec hrun hfetch hd hexec, if_pos hok]

/-- A call with room on the stack leaves a running core with the address of the word after the call on top. -/
theorem step_call {nnn : Addr} {s t : State} (hs : s.Inv) (hhost : s.host = []) (hrun : s.Running)
    (hfetch : s.Fetchable) (hroom : s.sp < s.cfg.stackDepth) (hd : decode s.wordAtPc = .ok (.call nnn))
    (h : step s = .next t) :
    t.host = [] ∧ t.Running ∧ t.sp = s.sp + 1 ∧ t.stackAt (s.sp + 1) = s.pc + 2 ∧ t.v = s.v ∧ t.mem = s.mem := by
  have hexec := execCall_of_room (s := s.enterHandler (Config.randomByte s.rndIndex)) (Nat.ne_of_lt hroom) nnn
  obtain rfl := Host.Outcome.next.inj ((step_of_exec hhost hrun hfetch hd hexec hrun.1).symm.trans h)
  exact ⟨by simp [hhost], by simpa [State.Running] using hrun, by simp,
    stackAt_of_set (timerStep_stack _) (hs.sp_lt_length hroom), by simp, by simp⟩

/-- A return with an entry on the stack resumes at the entry on top. -/
theorem step_ret {s : State} (hhost : s.host = []) (hrun : s.Running) (hfetch : s.Fetchable) (hsp : s.sp ≠ 0)
    (hd : decode s.wordAtPc = .ok .ret) :
    ∃ t, step s = .next t ∧ t.pc = s.stackAt s.sp ∧ t.sp = s.sp - 1 ∧ t.v = s.v ∧ t.mem = s.mem := by
  have hexec := execReturn_of_nonempty (s := s.enterHandler (Config.randomByte s.rndIndex)) hsp
  exact ⟨_, step_of_exec hhost hrun hfetch hd hexec hrun.1, timerStep_pc _, timerStep_sp _, timerStep_v _,
    timerStep_mem _⟩

theorem run_two {s t u : State} (hst : step s = .next t) (htu : step t = .next u) :
    Host.Core.run Sys2Proof.core 2 s = .next u := by
  have hs : Sys2Proof.core.step s = .next t := hst
  have ht : Sys2Proof.core.step t = .next u := htu
  simp [Host.Core.run, hs, ht]

/-- Settles O29: the call's step leaves on top the address at which the return's step resumes. -/
theorem callThenReturnResumes : Obligations.CallThenReturnResumes := by
  intro nnn s t hs hrun hfetch hhost hroom hcall hst hfetch' hret
  obtain ⟨hhost', hrun', hsp, htop, hv, hmem⟩ := step_call hs hhost hrun hfetch hroom hcall hst
  have hsp0 : t.sp ≠ 0 := hsp ▸ Nat.succ_ne_zero s.sp
  obtain ⟨u, htu, hpc, husp, huv, humem⟩ := step_ret hhost' hrun' hfetch' hsp0 hret
  rw [hsp] at hpc husp
  exact ⟨u, run_two hst htu, hpc.trans htop, husp, huv.trans hv, humem.trans hmem⟩

/-! The register and immediate skips -/

/-- A skip changes PC alone, by the condition that its Boolean test decides (spec/42_control_flow.md R143). -/
theorem skipIf_eq (s : State) {test : Bool} {cond : Prop} [Decidable cond] (h : test = true ↔ cond) :
    s.skipIf test = { s with pc := if cond then s.pc + 2 else s.pc } := by
  by_cases hc : cond
  · rw [if_pos hc, h.mpr hc]; rfl
  · rw [if_neg hc, Bool.eq_false_iff.mpr fun ht => hc (h.mp ht)]; rfl

/-- Settles O30: each handler is a skip on the Boolean form of its condition. -/
theorem immediateSkips : Obligations.ImmediateSkips := fun x kk s =>
  ⟨decode_of_encodeWith 0 (patternXkk_eq 0x3 x kk), decode_of_encodeWith 0 (patternXkk_eq 0x4 x kk),
    congrArg Host.Outcome.next (skipIf_eq s beq_iff_eq), congrArg Host.Outcome.next (skipIf_eq s bne_iff_ne)⟩

/-- The pattern with the low nibble `n` is the encoder's word with the number `n`. -/
theorem patternXyn_ofNat_eq (f : BitVec 4) (x y n : Fin 16) :
    patternXyn f x y (BitVec.ofNat 4 n.val) = wordOfXyn f.toNat x y n.val :=
  (patternXyn_eq f x y _).trans (congrArg (wordOfXyn f.toNat x y) (Nat.mod_eq_of_lt n.isLt))

/-- Settles O31: the two strict families are decoded by their low nibble, and each handler is a skip on the Boolean form
of its condition. -/
theorem registerSkips : Obligations.RegisterSkips := by
  intro x y n s
  refine ⟨?_, ?_, congrArg Host.Outcome.next (skipIf_eq s beq_iff_eq),
    congrArg Host.Outcome.next (skipIf_eq s bne_iff_ne)⟩
  · simp only [patternXyn_ofNat_eq, ← Fin.val_eq_zero_iff]
    exact decode_wordOfXyn_5 x y n.isLt
  · simp only [patternXyn_ofNat_eq, ← Fin.val_eq_zero_iff]
    exact decode_wordOfXyn_9 x y n.isLt

end Sys2Proof.Machine

/-! What the arithmetic, logic, shifts and rand do (spec/43_alu.md): the write of one register, the flagged write in each
order of `VF_MODE`, and the values of the flags and results as numbers. -/

namespace Sys2Proof.Machine

/-! One register written -/

theorem V_setV_same (s : State) (x : Reg) (b : Byte) : (s.setV x b).V x = b :=
  (V_setV s x x b).trans (if_pos rfl)

theorem V_setV_ne (s : State) {x r : Reg} (b : Byte) (h : r ≠ x) : (s.setV x b).V r = s.V r :=
  (V_setV s x r b).trans (if_neg h)

theorem getLsbD_V_setV_same (s : State) (x : Reg) (b : Byte) (k : Nat) :
    ((s.setV x b).V x).getLsbD k = b.getLsbD k :=
  congrArg (BitVec.getLsbD · k) (V_setV_same s x b)

theorem toNat_sumByte (a b : Byte) : (sumByte a b).toNat = (a.toNat + b.toNat) % 256 := BitVec.toNat_ofNat _ 8

/-- Settles O32: each handler is the write of one register. -/
theorem loadsAndAddImmWriteTheDestination : Obligations.LoadsAndAddImmWriteTheDestination := by
  intro x y kk s
  refine ⟨decode_of_encodeWith 0 (patternXkk_eq 0x6 x kk), decode_of_encodeWith 0 (patternXkk_eq 0x7 x kk),
    decode_of_encodeWith 0 (patternXyn_eq 0x8 x y 0x0),
    ⟨_, rfl, rfl, V_setV_same s x _, fun _ => V_setV_ne s _⟩, ⟨_, rfl, rfl, ?_, fun _ => V_setV_ne s _⟩,
    ⟨_, rfl, rfl, V_setV_same s x _, fun _ => V_setV_ne s _⟩⟩
  rw [V_setV_same, toNat_sumByte]

/-- Settles O33: each handler writes one register with the operands combined bit by bit. -/
theorem logicWritesTheDestinationBitwise : Obligations.LogicWritesTheDestinationBitwise := by
  intro x y s
  refine ⟨decode_of_encodeWith 0 (patternXyn_eq 0x8 x y 0x1), decode_of_encodeWith 0 (patternXyn_eq 0x8 x y 0x2),
    decode_of_encodeWith 0 (patternXyn_eq 0x8 x y 0x3), ⟨_, rfl, rfl, fun k => ?_, fun _ => V_setV_ne s _⟩,
    ⟨_, rfl, rfl, fun k => ?_, fun _ => V_setV_ne s _⟩, ⟨_, rfl, rfl, fun k => ?_, fun _ => V_setV_ne s _⟩⟩
  · rw [getLsbD_V_setV_same, BitVec.getLsbD_or]
  · rw [getLsbD_V_setV_same, BitVec.getLsbD_and]
  · rw [getLsbD_V_setV_same, BitVec.getLsbD_xor]

/-- A step with a queued CYCLE whose handler raises no fault. -/
theorem step_cycle_of_exec {s t : State} {i : Instr} {rnd : Byte} {rest : List HostEvent}
    (hhost : s.host = .cycle rnd :: rest) (hrun : s.Running) (hfetch : s.Fetchable) (hd : decode s.wordAtPc = .ok i)
    (hexec : exec i (({ s with host := rest } : State).enterHandler rnd) = .next t) (hok : t.fault.kind = .none) :
    step s = .next t.timerStep := by
  have hcycle := cycle_of_exec (s := { s with host := rest }) hrun hfetch hd hexec
  rw [if_pos hok] at hcycle
  exact (step_cons hhost).trans hcycle

/-- Settles O39: the handler reads the random input that the cycle around it was given, and the timer step keeps the
register written. -/
theorem randMasksTheRandomInput : Obligations.RandMasksTheRandomInput := by
  intro x kk rnd s
  refine ⟨decode_of_encodeWith 0 (patternXkk_eq 0xC x kk), ⟨_, rfl, rfl, fun k => ?_, fun _ => V_setV_ne s _⟩,
    fun rest hrun hfetch hd hhost => ⟨_, step_cycle_of_exec hhost hrun hfetch hd rfl hrun.1, ?_⟩⟩
  · rw [getLsbD_V_setV_same, BitVec.getLsbD_and]
  · exact (V_congr (timerStep_v _) x).trans (V_setV_same _ x _)

/-! Flags and results as numbers -/

theorem toNat_flagByte (p : Prop) [Decidable p] : (flagByte (decide p)).toNat = if p then 1 else 0 := by
  by_cases h : p <;> simp [flagByte, h]

theorem toNat_carryFlag (a b : Byte) : (carryFlag a b).toNat = if 255 < a.toNat + b.toNat then 1 else 0 :=
  toNat_flagByte _

theorem toNat_greaterFlag (a b : Byte) : (greaterFlag a b).toNat = if b.toNat < a.toNat then 1 else 0 :=
  toNat_flagByte _

theorem toNat_lowBitFlag (a : Byte) : (lowBitFlag a).toNat = a.toNat % 2 :=
  (BitVec.toNat_and a 1).trans (Nat.and_one_is_mod _)

theorem toNat_highBitFlag (a : Byte) : (highBitFlag a).toNat = a.toNat / 128 :=
  (BitVec.toNat_ushiftRight a 7).trans (Nat.shiftRight_eq_div_pow _ 7)

theorem toNat_difference (a b : Byte) : (a - b).toNat = (a.toNat + 256 - b.toNat) % 256 := by
  have := a.isLt
  have := b.isLt
  rw [BitVec.toNat_sub]
  omega

theorem toNat_shiftedRight (a : Byte) : (a >>> 1).toNat = a.toNat / 2 :=
  (BitVec.toNat_ushiftRight a 1).trans (Nat.shiftRight_eq_div_pow _ 1)

theorem toNat_shiftedLeft (a : Byte) : (a <<< 1).toNat = a.toNat * 2 % 256 :=
  BitVec.toNat_shiftLeft.trans (congrArg (· % 256) (Nat.shiftLeft_eq a.toNat 1))

theorem eq_zero_or_one_of_toNat {b : Byte} (h : b.toNat < 2) : b = 0 ∨ b = 1 := by
  simp only [← BitVec.toNat_inj]
  exact Nat.le_one_iff_eq_zero_or_eq_one.mp (Nat.lt_succ_iff.mp h)

theorem lowBitFlag_zero_or_one (a : Byte) : lowBitFlag a = 0 ∨ lowBitFlag a = 1 :=
  eq_zero_or_one_of_toNat (by rw [toNat_lowBitFlag]; omega)

theorem highBitFlag_zero_or_one (a : Byte) : highBitFlag a = 0 ∨ highBitFlag a = 1 :=
  eq_zero_or_one_of_toNat (by have := a.isLt; rw [toNat_highBitFlag]; omega)

/-! The flagged write, by its order of reads and writes (R166) -/

section
variable (m : VfMode) (f g : Byte → Byte → Byte) {x : Reg} (y : Reg) (s : State)

theorem writeFlagged_VF_of_ne (hx : x ≠ VF) : (writeFlagged m f g x y s).V VF = f (s.V x) (s.V y) := by
  cases m with
  | latchedResultLast => rw [writeFlagged_latchedResultLast, if_neg hx.symm, if_pos rfl]
  | latchedFlagLast => rw [writeFlagged_latchedFlagLast, if_pos rfl]
  | sequential => rw [writeFlagged_sequential, if_neg hx.symm, if_pos rfl]

theorem writeFlagged_VF_zero_or_one (hx : x ≠ VF) (hf : f (s.V x) (s.V y) = 0 ∨ f (s.V x) (s.V y) = 1) :
    (writeFlagged m f g x y s).V VF = 0 ∨ (writeFlagged m f g x y s).V VF = 1 := by
  rwa [writeFlagged_VF_of_ne m f g y s hx]

variable {m} in
theorem writeFlagged_V_dest_of_latched (hm : m ≠ .sequential) (hx : x ≠ VF) :
    (writeFlagged m f g x y s).V x = g (s.V x) (s.V y) := by
  cases m with
  | latchedResultLast => rw [writeFlagged_latchedResultLast, if_pos rfl]
  | latchedFlagLast => rw [writeFlagged_latchedFlagLast, if_neg hx, if_pos rfl]
  | sequential => exact absurd rfl hm

variable (x)

theorem writeFlagged_latchedResultLast_V_dest :
    (writeFlagged .latchedResultLast f g x y s).V x = g (s.V x) (s.V y) := V_setV_same _ x _

theorem writeFlagged_latchedFlagLast_VF :
    (writeFlagged .latchedFlagLast f g x y s).V VF = f (s.V x) (s.V y) := V_setV_same _ VF _

theorem writeFlagged_sequential_V_dest :
    (writeFlagged .sequential f g x y s).V x =
      g ((s.setV VF (f (s.V x) (s.V y))).V x) ((s.setV VF (f (s.V x) (s.V y))).V y) := V_setV_same _ x _

end

/-- Settles O34: with the destination apart from VF every order leaves the flag in VF, and a write of the destination
alone leaves VF. -/
theorem flagWritersWriteVfUnconditionally : Obligations.FlagWritersWriteVfUnconditionally := by
  intro i x y kk s hx
  simp only [List.mem_cons, List.not_mem_nil, or_false]
  constructor
  · rintro (rfl | rfl | rfl | rfl | rfl)
    · exact ⟨_, rfl, writeFlagged_VF_zero_or_one _ _ _ y s hx (flagByte_zero_or_one _)⟩
    · exact ⟨_, rfl, writeFlagged_VF_zero_or_one _ _ _ y s hx (flagByte_zero_or_one _)⟩
    · exact ⟨_, rfl, writeFlagged_VF_zero_or_one _ _ _ x s hx (lowBitFlag_zero_or_one _)⟩
    · exact ⟨_, rfl, writeFlagged_VF_zero_or_one _ _ _ y s hx (flagByte_zero_or_one _)⟩
    · exact ⟨_, rfl, writeFlagged_VF_zero_or_one _ _ _ x s hx (highBitFlag_zero_or_one _)⟩
  · rintro (rfl | rfl | rfl | rfl | rfl | rfl | rfl) <;> exact ⟨_, rfl, V_setV_ne s _ hx.symm⟩

/-! add-reg: its sum is computed once (R167, R174) -/

theorem addRegMode_ne_sequential (m : VfMode) : addRegMode m ≠ .sequential := by
  cases m <;> decide

theorem addRegMode_of_ne {m : VfMode} (h : m ≠ .latchedFlagLast) : addRegMode m = .latchedResultLast := by
  cases m with
  | latchedFlagLast => exact absurd rfl h
  | latchedResultLast | sequential => rfl

/-- Settles O35: add-reg runs in one of the two latched orders. -/
theorem addRegSumsAndCarries : Obligations.AddRegSumsAndCarries := by
  intro x y s
  refine ⟨_, rfl, writeFlagged_frame _ _ _ x y s, fun r => writeFlagged_V_other _ _ _ x y r s, fun hx => ⟨?_, ?_⟩, ?_, ?_⟩
  · rw [writeFlagged_V_dest_of_latched _ _ y s (addRegMode_ne_sequential _) hx, toNat_sumByte]
  · rw [writeFlagged_VF_of_ne _ _ _ y s hx, toNat_carryFlag]
  · rintro rfl hmode
    rw [addRegMode_of_ne hmode, writeFlagged_latchedResultLast_V_dest, toNat_sumByte]
  · rintro rfl hmode
    rw [hmode, addRegMode, writeFlagged_latchedFlagLast_VF, toNat_carryFlag]

/-! The subtractions and the shifts -/

/-- The operand register VF reads as the flag once the flag was written. -/
theorem toNat_V_setV_VF (s : State) (b : Byte) (r : Reg) :
    ((s.setV VF b).V r).toNat = if r = VF then b.toNat else (s.V r).toNat := by
  rw [V_setV, apply_ite BitVec.toNat]

/-- The flagged write `f`, `g` on V[x] and V[y] is the subtraction of V[w] from V[u] with its strict flag (R168, R170). -/
structure Subtracts (f g : Byte → Byte → Byte) (x y u w : Reg) : Prop where
  flag : ∀ s : State, (f (s.V x) (s.V y)).toNat = if (s.V w).toNat < (s.V u).toNat then 1 else 0
  result : ∀ s : State, (g (s.V x) (s.V y)).toNat = ((s.V u).toNat + 256 - (s.V w).toNat) % 256

theorem subtracts_sub (x y : Reg) : Subtracts greaterFlag (fun a b => a - b) x y x y :=
  ⟨fun _ => toNat_greaterFlag _ _, fun _ => toNat_difference _ _⟩

theorem subtracts_subn (x y : Reg) : Subtracts (fun a b => greaterFlag b a) (fun a b => b - a) x y y x :=
  ⟨fun _ => toNat_greaterFlag _ _, fun _ => toNat_difference _ _⟩

/-- Settles O36: sub and subn are one subtraction, of V[y] from V[x] and of V[x] from V[y]. -/
theorem subtractionsWrapWithStrictFlag : Obligations.SubtractionsWrapWithStrictFlag := by
  intro x y s i p q h
  obtain ⟨f, g, u, w, hexec, hsub, rfl, rfl, hu, hw⟩ : ∃ f g u w,
      exec i s = .next (writeFlagged s.cfg.vfMode f g x y s) ∧ Subtracts f g x y u w ∧
      p = (s.V u).toNat ∧ q = (s.V w).toNat ∧
      (i = .sub x y ∧ x = VF ∨ i ≠ .sub x y ∧ y = VF ↔ u = VF) ∧
      (i = .sub x y ∧ y = VF ∨ i ≠ .sub x y ∧ x = VF ↔ w = VF) := by
    rcases h with ⟨rfl, hp, hq⟩ | ⟨rfl, hp, hq⟩
    · exact ⟨_, _, x, y, rfl, subtracts_sub x y, hp, hq, by simp, by simp⟩
    · exact ⟨_, _, y, x, rfl, subtracts_subn x y, hp, hq, by simp, by simp⟩
  refine ⟨_, hexec, writeFlagged_frame _ f g x y s, fun r => writeFlagged_V_other _ f g x y r s, ?_, ?_, ?_, ?_⟩
  · rintro ⟨hm, hx⟩
    rw [writeFlagged_V_dest_of_latched f g y s hm hx, writeFlagged_VF_of_ne _ f g y s hx]
    exact ⟨hsub.result s, hsub.flag s⟩
  · rintro ⟨hm, rfl⟩
    rw [hm, writeFlagged_latchedResultLast_V_dest, hsub.result]
  · rintro ⟨hm, rfl⟩
    rw [hm, writeFlagged_latchedFlagLast_VF, hsub.flag]
  · intro hm
    simp only [hu, hw]
    refine ⟨?_, fun hx => ?_⟩
    · rw [hm, writeFlagged_sequential_V_dest, hsub.result, toNat_V_setV_VF, toNat_V_setV_VF, hsub.flag]
    · rw [writeFlagged_VF_of_ne _ f g y s hx, hsub.flag]

/-- Settles O37: shr and shl are one flagged write of V[x], with a shift and the bit shifted out. -/
theorem shiftsByOneWithTheBitShiftedOut : Obligations.ShiftsByOneWithTheBitShiftedOut := by
  intro x s i shift flag h
  obtain ⟨out, shifted, hexec, rfl, hshift⟩ : ∃ out shifted : Byte → Byte,
      exec i s = .next (writeFlagged s.cfg.vfMode (fun a _ => out a) (fun a _ => shifted a) x x s) ∧
      flag = (out (s.V x)).toNat ∧ ∀ a, (shifted a).toNat = shift a.toNat := by
    rcases h with ⟨rfl, rfl, hflag⟩ | ⟨rfl, rfl, hflag⟩
    · exact ⟨lowBitFlag, (· >>> 1), rfl, hflag.trans (toNat_lowBitFlag _).symm, toNat_shiftedRight⟩
    · exact ⟨highBitFlag, (· <<< 1), rfl, hflag.trans (toNat_highBitFlag _).symm, toNat_shiftedLeft⟩
  refine ⟨_, hexec, writeFlagged_frame _ _ _ x x s, fun r => writeFlagged_V_other _ _ _ x x r s, ?_, ?_, ?_, ?_⟩
  · intro hx
    rw [writeFlagged_VF_of_ne _ _ _ x s hx]
    refine ⟨?_, rfl⟩
    by_cases hm : s.cfg.vfMode = .sequential
    · rw [hm, writeFlagged_sequential_V_dest, V_setV_ne s _ hx, hshift]
    · rw [writeFlagged_V_dest_of_latched _ _ x s hm hx, hshift]
  · rintro ⟨hm, rfl⟩
    rw [hm, writeFlagged_latchedResultLast_V_dest, hshift]
  · rintro ⟨hm, rfl⟩
    rw [hm, writeFlagged_latchedFlagLast_VF]
  · rintro ⟨hm, rfl⟩
    rw [hm, writeFlagged_sequential_V_dest, V_setV_same, hshift]

/-! The order of reads and writes, where VF is no operand (R174) -/

/-- A handler to which `VF_MODE` does not matter: another mode leads to the same outcome, the configuration apart. -/
def IgnoresMode (handler : State → Result) : Prop :=
  ∀ (s : State) (m : VfMode), handler (s.withMode m) = mapNext (·.withMode m) (handler s)

theorem writeFlagged_withMode (k : VfMode) (f g : Byte → Byte → Byte) (x y : Reg) (s : State) (m : VfMode) :
    writeFlagged k f g x y (s.withMode m) = (writeFlagged k f g x y s).withMode m := by
  cases k with
  | latchedResultLast | latchedFlagLast | sequential => rfl

section
variable {x y : Reg} (hx : x ≠ VF) (hy : y ≠ VF)
include hx hy

theorem writeFlagged_V_of_ne (m : VfMode) (f g : Byte → Byte → Byte) (s : State) (r : Reg) :
    (writeFlagged m f g x y s).V r =
      if r = x then g (s.V x) (s.V y) else if r = VF then f (s.V x) (s.V y) else s.V r := by
  cases m with
  | latchedResultLast => exact writeFlagged_latchedResultLast f g x y r s
  | sequential => rw [writeFlagged_sequential, if_neg hx, if_neg hy]
  | latchedFlagLast =>
    rw [writeFlagged_latchedFlagLast]
    by_cases hr : r = x
    · rw [hr, if_neg hx, if_pos rfl, if_pos rfl]
    · rw [if_neg hr, if_neg hr]

theorem writeFlagged_mode_irrel (m m' : VfMode) (f g : Byte → Byte → Byte) (s : State) :
    writeFlagged m f g x y s = writeFlagged m' f g x y s := by
  have hv : (writeFlagged m f g x y s).v = (writeFlagged m' f g x y s).v :=
    v_ext fun r => by rw [writeFlagged_V_of_ne hx hy, writeFlagged_V_of_ne hx hy]
  rw [writeFlagged_frame m, writeFlagged_frame m', hv]

theorem ignoresMode_writeFlagged (order : VfMode → VfMode) (f g : Byte → Byte → Byte) :
    IgnoresMode fun s => .next (writeFlagged (order s.cfg.vfMode) f g x y s) := fun s m =>
  congrArg Host.Outcome.next
    ((writeFlagged_mode_irrel hx hy _ _ f g _).trans (writeFlagged_withMode (order s.cfg.vfMode) f g x y s m))

end

theorem read_withVfMode (c : Config) (m : VfMode) (mem : Memory) (a : Nat) :
    Memory.read { c with vfMode := m } mem a = Memory.read c mem a := by
  induction mem with
  | nil => rfl
  | cons d rest ih => rw [Memory.read, Memory.read, ih]

theorem drawSprite_withVfMode (c : Config) (m : VfMode) (p : Display) (cx cy : Nat) (b : Byte) :
    drawSprite { c with vfMode := m } p cx cy b = drawSprite c p cx cy b := by
  rw [drawSprite, drawSprite, drawBits_eq_stampEach, drawBits_eq_stampEach]
  rfl

theorem drawRows_withMode (s : State) (m : VfMode) (vx vy : Nat) (rs : List Nat) (acc : Display × Bool) :
    drawRows (s.withMode m) vx vy rs acc = drawRows s vx vy rs acc := by
  have hrow : (s.withMode m).stampRow vx vy = s.stampRow vx vy := by
    funext r p
    exact (drawSprite_withVfMode s.cfg m p vx (vy + r) _).trans
      (congrArg (drawSprite s.cfg p vx (vy + r)) (read_withVfMode s.cfg m s.mem _))
  rw [drawRows_eq_stampEach, drawRows_eq_stampEach, hrow]

theorem drawLatched_withMode (x y : Reg) (n : RowCount) (s : State) (m : VfMode) :
    drawLatched x y n (s.withMode m) = (drawLatched x y n s).withMode m := by
  simp only [drawLatched, drawRows_withMode]
  rfl

/-- With neither coordinate register VF a draw checks its reads and then is the latched one in every mode (R125). -/
theorem execDraw_of_ne_VF {x y : Reg} (hx : x ≠ VF) (hy : y ≠ VF) (n : RowCount) (s : State) :
    execDraw x y n s = unlessFault (boundsFault s.cfg (s.effAddr 0) n.val) s (drawLatched x y n s) := by
  unfold execDraw
  cases s.cfg.vfMode with
  | latchedResultLast | latchedFlagLast => rfl
  | sequential => exact congrArg _ (drawSequential_eq_drawLatched hx hy n s)

theorem ignoresMode_draw {x y : Reg} (hx : x ≠ VF) (hy : y ≠ VF) (n : RowCount) : IgnoresMode (execDraw x y n) := by
  intro s m
  have hfound : boundsFault (s.withMode m).cfg ((s.withMode m).effAddr 0) n.val =
      boundsFault s.cfg (s.effAddr 0) n.val := rfl
  rw [execDraw_of_ne_VF hx hy, execDraw_of_ne_VF hx hy, drawLatched_withMode, hfound]
  cases boundsFault s.cfg (s.effAddr 0) n.val with
  | none | some fault => rfl

/-- What a handler that ignores `VF_MODE` leads to under one mode it leads to under another: no handler writes the
configuration. -/
theorem exec_withMode_of_ignoresMode {i : Instr} (hi : IgnoresMode (exec i)) {s t : State} {m : VfMode} (m' : VfMode)
    (h : exec i (s.withMode m) = .next t) : exec i (s.withMode m') = .next { t with cfg := (s.withMode m').cfg } := by
  have hcfg : t.cfg = (s.withMode m).cfg := effect_cfg (exec_effect h)
  calc exec i (s.withMode m')
      = mapNext (·.withMode m') (exec i (s.withMode m)) := hi (s.withMode m) m'
    _ = .next (t.withMode m') := congrArg _ h
    _ = .next { t with cfg := (s.withMode m').cfg } := by rw [State.withMode, hcfg]; rfl

/-- Settles O38: with VF no operand a flagged write leaves the same registers in every order, and a draw is the latched
one. -/
theorem vfModeMattersOnlyToVfOperands : Obligations.VfModeMattersOnlyToVfOperands := by
  intro x y n i s t m m' hx hy hi h
  refine exec_withMode_of_ignoresMode ?_ m' h
  simp only [List.mem_cons, List.not_mem_nil, or_false] at hi
  rcases hi with rfl | rfl | rfl | rfl | rfl | rfl
  · exact ignoresMode_writeFlagged hx hy addRegMode _ _
  · exact ignoresMode_writeFlagged hx hy id _ _
  · exact ignoresMode_writeFlagged hx hy id _ _
  · exact ignoresMode_writeFlagged hx hx id _ _
  · exact ignoresMode_writeFlagged hx hx id _ _
  · exact ignoresMode_draw hx hy n

end Sys2Proof.Machine

/-! What the index-register and memory instructions do (spec/44_index_memory.md): the values of I, the faults of a store
check, and the bytes stored and loaded from I up. -/

namespace Sys2Proof.Machine

/-! The index register -/

/-- Settles O40: I alone is written, and its sum with a register value wraps at 16 bits. -/
theorem indexLoadsAndAdds : Obligations.IndexLoadsAndAdds := by
  intro nnn x s
  refine ⟨decode_of_encodeWith 0 (patternNnn_eq 0xA nnn), decode_of_encodeWith 0 (patternXkk_eq 0xF x 0x1E),
    ⟨_, rfl, rfl, toNat_zextAddr nnn⟩, ⟨_, rfl, rfl, ?_⟩⟩
  exact (BitVec.toNat_add s.i _).trans (by rw [toNat_zextByte])

theorem toNat_glyphAddr (c : Config) (b : Byte) :
    (glyphAddr c b).toNat = (c.fontBase + c.fontStride * b.toNat) % 65536 := BitVec.toNat_ofNat _ 16

/-- Settles O41: I alone is written, with the glyph address of the whole register value. -/
theorem loadFontAddrAddsTheStride : Obligations.LoadFontAddrAddsTheStride := fun x s =>
  ⟨_, rfl, rfl, toNat_glyphAddr s.cfg (s.V x)⟩

/-! The checks before an access (R51, R58, R193) -/

section
variable {c : Config} {a n : Nat}

theorem boundsFault_of_past_end (hn : 0 < n) (hpast : c.memSize < a + n) :
    boundsFault c a n = some (.memOutOfBounds, BitVec.ofNat 16 (max a c.memSize)) := by
  rw [boundsFault_eq, if_neg]
  omega

theorem inFont_iff {k : Nat} : c.inFont k = true ↔ c.fontBase ≤ k ∧ k < c.fontBase + c.fontSize := by
  simp [Config.inFont]

/-- Addresses that overlap the font region fault at the lowest of them in it: the first one, or the base of the
region. -/
theorem fontFault_of_overlap (hpolicy : c.fontWrite = .fault) (hsize : 0 < c.fontSize) (hlow : c.fontBase < a + n)
    (hhigh : a < c.fontBase + c.fontSize) (hn : 0 < n) :
    fontFault c a n = some (.fontRegionWrite, BitVec.ofNat 16 (max a c.fontBase)) := by
  have hfind : (List.range' a n).find? (fun k => c.inFont k) = some (max a c.fontBase) := by
    refine List.find?_range'_eq_some.mpr ⟨inFont_iff.mpr (by omega), List.mem_range'_1.mpr (by omega),
      fun k hak hk => ?_⟩
    have hbelow : c.inFont k = false := Bool.eq_false_iff.mpr fun hin => by
      have := inFont_iff.mp hin
      omega
    rw [hbelow, Bool.not_false]
  rw [fontFault, hpolicy]
  exact congrArg (Option.map _) hfind

theorem storeFault_of_boundsFault {d : FaultKind × Word} (h : boundsFault c a n = some d) :
    storeFault c a n = some d := by
  rw [storeFault, h, Option.some_or]

theorem storeFault_of_boundsFault_none (h : boundsFault c a n = none) : storeFault c a n = fontFault c a n := by
  rw [storeFault, h, Option.none_or]

theorem storeFault_none_of_fits (hfits : a + n ≤ c.memSize)
    (hfont : c.fontWrite = .fault → ∀ k, a ≤ k → k < a + n → c.inFont k = false) : storeFault c a n = none :=
  storeFault_none.mpr ⟨boundsFault_none.mpr (.inl hfits), fontFault_none.mpr hfont⟩

end

theorem unlessFault_of_none {found : Option (FaultKind × Word)} {s run : State} (h : found = none) :
    unlessFault found s run = .next run := by
  rw [h, unlessFault_none]

theorem unlessFault_of_some {found : Option (FaultKind × Word)} {s run : State} {kind : FaultKind} {info : Word}
    (h : found = some (kind, info)) : unlessFault found s run = raise kind info s := by
  rw [h, unlessFault_some]

/-! Stores -/

theorem exec_of_storeFault {x : Reg} {s : State} {i : Instr} (hi : i = .storeBcd x ∨ i = .storeRegs x)
    {kind : FaultKind} {info : Word} (h : storeFault s.cfg (s.effAddr 0) (storedLength i) = some (kind, info)) :
    exec i s = raise kind info s := by
  rcases hi with rfl | rfl
  · exact unlessFault_of_some h
  · exact unlessFault_of_some h

theorem exec_storeBcd_of_checked {x : Reg} {s : State} (h : storeFault s.cfg (s.effAddr 0) 3 = none) :
    exec (.storeBcd x) s = .next (s.storeBytes (s.effAddr 0) (bcdDigits (s.V x))) :=
  unlessFault_of_none h

theorem exec_storeRegs_of_checked {x : Reg} {s : State} (h : storeFault s.cfg (s.effAddr 0) (x.val + 1) = none) :
    exec (.storeRegs x) s = .next (s.storeBytes (s.effAddr 0) (s.firstRegs x)) :=
  unlessFault_of_none h

/-- Settles O45: the check over the stored addresses finds the lowest that does not exist, or else the lowest in the
font region. -/
theorem storesOutsideRamFault : Obligations.StoresOutsideRamFault := by
  intro x s i hi
  have hpos : 0 < storedLength i := by
    rcases hi with rfl | rfl
    · exact Nat.succ_pos 2
    · exact Nat.succ_pos x.val
  refine ⟨fun hpast => ?_, fun hfits hpolicy hsize hlow hhigh => ?_⟩
  · exact exec_of_storeFault hi (storeFault_of_boundsFault (boundsFault_of_past_end hpos hpast))
  · have hbounds : boundsFault s.cfg (s.effAddr 0) (storedLength i) = none := boundsFault_none.mpr (.inl hfits)
    exact exec_of_storeFault hi
      ((storeFault_of_boundsFault_none hbounds).trans (fontFault_of_overlap hpolicy hsize hlow hhigh hpos))

section
variable {s : State} (hwf : Memory.wf s.cfg s.mem = true) {bs : List Byte}
include hwf

theorem readByte_storeBytes_effAddr {k : Nat} (hk : k < bs.length) :
    (s.storeBytes (s.effAddr 0) bs).readByte (s.effAddr k) = bs.getD k 0 := by
  have hin : s.effAddr 0 ≤ s.effAddr k ∧ s.effAddr k < s.effAddr 0 + bs.length := by
    simp only [State.effAddr]
    omega
  have hoffset : s.effAddr k - s.effAddr 0 = k := Nat.add_sub_cancel_left s.i.toNat k
  rw [readByte_storeBytes s hwf, if_pos hin, hoffset]

theorem readByte_storeBytes_outside {n a : Nat} (hn : bs.length = n)
    (hout : ¬ (s.effAddr 0 ≤ a ∧ a < s.effAddr 0 + n)) :
    (s.storeBytes (s.effAddr 0) bs).readByte a = s.readByte a := by
  rw [readByte_storeBytes s hwf, hn, if_neg hout]

theorem readByte_storeBytes_firstRegs {x r : Reg} (hr : r ≤ x) :
    (s.storeBytes (s.effAddr 0) (s.firstRegs x)).readByte (s.effAddr r.val) = s.V r := by
  have hlen : r.val < (s.firstRegs x).length := by
    rw [length_firstRegs]
    exact Nat.lt_succ_of_le hr
  rw [readByte_storeBytes_effAddr hwf hlen, firstRegs_getD s x r hr]

end

theorem toNat_bcdDigits (b : Byte) :
    ((bcdDigits b).getD 0 0).toNat = b.toNat / 100 ∧ ((bcdDigits b).getD 1 0).toNat = b.toNat / 10 % 10 ∧
      ((bcdDigits b).getD 2 0).toNat = b.toNat % 10 := by
  have := b.isLt
  simp only [bcdDigits, List.getD_cons_zero, List.getD_cons_succ, BitVec.toNat_ofNat]
  omega

/-- Settles O42: the checks pass, and the three digits are the bytes stored from I up. -/
theorem storeBcdStoresTheDigits : Obligations.StoreBcdStoresTheDigits := by
  intro x s hwf hfits hfont
  obtain ⟨hhundreds, htens, hones⟩ := toNat_bcdDigits (s.V x)
  have hread (k : Nat) (hk : k < 3) := readByte_storeBytes_effAddr hwf (bs := bcdDigits (s.V x)) hk
  refine ⟨_, exec_storeBcd_of_checked (storeFault_none_of_fits hfits hfont), rfl, ?_, ?_, ?_,
    fun a => readByte_storeBytes_outside hwf rfl⟩
  · rw [hread 0 (by decide), hhundreds]
  · rw [hread 1 (by decide), htens]
  · rw [hread 2 (by decide), hones]

/-- Settles O43: the checks pass, and V0 to V[x] are the bytes stored from I up. -/
theorem storeRegsStoresEachRegister : Obligations.StoreRegsStoresEachRegister := fun x s hwf hfits hfont =>
  ⟨_, exec_storeRegs_of_checked (storeFault_none_of_fits hfits hfont), rfl,
    fun _ => readByte_storeBytes_firstRegs hwf, fun _ => readByte_storeBytes_outside hwf (length_firstRegs s x)⟩

/-! Loads -/

/-- The state load-regs leaves once its check has passed (R197); `exec_loadRegs` ties it to `exec`. -/
def State.loadFirstRegs (s : State) (x : Reg) : State :=
  { s with v := Vector.ofFn fun r : Reg => if r ≤ x then s.readByte (s.effAddr r.val) else s.V r }

theorem exec_loadRegs (x : Reg) (s : State) :
    exec (.loadRegs x) s = unlessFault (boundsFault s.cfg (s.effAddr 0) (x.val + 1)) s (s.loadFirstRegs x) := rfl

theorem V_loadFirstRegs (s : State) (x r : Reg) :
    (s.loadFirstRegs x).V r = if r ≤ x then s.readByte (s.effAddr r.val) else s.V r :=
  Vector.getElem_ofFn r.isLt

/-- A load-regs that raises no fault loads V0 to V[x] and does nothing else. -/
theorem exec_loadRegs_completes {x : Reg} {s t : State} (h : exec (.loadRegs x) s = .next t)
    (hok : t.fault.kind = .none) : t = s.loadFirstRegs x := by
  rcases unlessFault_cases ((exec_loadRegs x s).symm.trans h) with ⟨kind, info, hf, rfl⟩ | ⟨-, hrun⟩
  · exact absurd hok (boundsFault_kind_ne_none kind info hf)
  · exact hrun

/-- Settles O44: the check passes and the registers are loaded, or it finds the lowest address that does not exist. -/
theorem loadRegsLoadsEachRegister : Obligations.LoadRegsLoadsEachRegister := by
  intro x s
  refine ⟨fun hfits => ⟨s.loadFirstRegs x, ?_, rfl, fun r hr => ?_, fun r hr => ?_⟩, fun hpast => ?_⟩
  · exact unlessFault_of_none (boundsFault_none.mpr (.inl hfits))
  · rw [V_loadFirstRegs, if_pos hr]
  · rw [V_loadFirstRegs, if_neg (Fin.not_le.mpr hr)]
  · exact unlessFault_of_some (boundsFault_of_past_end (Nat.succ_pos x.val) hpast)

/-- Settles O46: each register loaded is the byte read at the address where the store left its value. -/
theorem storeThenLoadRestoresRegisters : Obligations.StoreThenLoadRestoresRegisters := by
  intro x s t u w hwf _ hstore htok hcfg hmem hi _ hload hwok r hr
  obtain rfl := exec_storeRegs_completes hstore htok
  obtain rfl := exec_loadRegs_completes hload hwok
  have haddr : u.effAddr r.val = s.effAddr r.val := congrArg (fun a : Word => a.toNat + r.val) hi
  calc (u.loadFirstRegs x).V r
    _ = u.readByte (u.effAddr r.val) := by rw [V_loadFirstRegs, if_pos hr]
    _ = (s.storeBytes (s.effAddr 0) (s.firstRegs x)).readByte (s.effAddr r.val) := by
      rw [haddr, readByte_congr hcfg hmem]
    _ = s.V r := readByte_storeBytes_firstRegs hwf hr

end Sys2Proof.Machine

/-! What the key and timer instructions do (spec/45_keys_timers.md): the timers counted down by completed cycles, the key
tests by what `KeyIndex` makes of a register value, and the key wait. -/

namespace Sys2Proof.Machine

/-! The timers -/

/-- Settles O52: `tick` reaching `TIMER_DIV` decides whether the timers count down. -/
theorem timerStepCountsDown : Obligations.TimerStepCountsDown := by
  intro s
  refine ⟨timerStep_frame s, fun hdue => ?_, fun hnot => ?_⟩
  · simp [hdue, countDown_toNat]
  · simp [hnot]

/-- Every completed cycle counts the timers down: `TIMER_DIV` is 1, so `tick` stands at 0 between cycles (R216). -/
def State.TicksEveryCycle (s : State) : Prop := s.cfg.timerDiv = 1 ∧ s.tick = 0

theorem State.TicksEveryCycle.congr {s t : State} (h : s.TicksEveryCycle) (hcfg : t.cfg = s.cfg)
    (htick : t.tick = s.tick) : t.TicksEveryCycle := by
  obtain ⟨hdiv, hzero⟩ := h
  exact ⟨hcfg ▸ hdiv, htick.trans hzero⟩

/-- What a timer step does in each cycle when every cycle counts. -/
theorem State.TicksEveryCycle.timerStep_eq {s : State} (h : s.TicksEveryCycle) :
    s.timerStep.tick = 0 ∧ s.timerStep.dt.toNat = s.dt.toNat - 1 ∧ s.timerStep.st.toNat = s.st.toNat - 1 := by
  obtain ⟨hdiv, hzero⟩ := h
  obtain ⟨-, hdue, -⟩ := timerStepCountsDown s
  exact hdue (by rw [hdiv, hzero])

theorem State.TicksEveryCycle.timerStep {s : State} (h : s.TicksEveryCycle) : s.timerStep.TicksEveryCycle := by
  obtain ⟨hzero, -, -⟩ := h.timerStep_eq
  obtain ⟨hdiv, -⟩ := h
  exact ⟨(congrArg Config.timerDiv (timerStep_cfg s)).trans hdiv, hzero⟩

theorem soundActive_iff (s : State) : s.soundActive = true ↔ 0 < s.st.toNat := decide_eq_true_iff

/-- Settles O49: load-delay is the write of one register, the two others the write of one timer, which the timer step
then counts down. -/
theorem timerRegistersAreReadAndWritten : Obligations.TimerRegistersAreReadAndWritten := by
  intro x s
  refine ⟨decode_of_encodeWith 0 (patternXkk_eq 0xF x 0x07), decode_of_encodeWith 0 (patternXkk_eq 0xF x 0x15),
    decode_of_encodeWith 0 (patternXkk_eq 0xF x 0x18),
    ⟨_, rfl, rfl, V_setV_same s x _, fun _ => V_setV_ne s _⟩,
    ⟨_, rfl, rfl, fun hdiv htick => ?_⟩, ⟨_, rfl, rfl, fun hdiv htick => ?_⟩⟩
  · have hticks : ({ s with dt := s.V x } : State).TicksEveryCycle := ⟨hdiv, htick⟩
    obtain ⟨-, hdt, -⟩ := hticks.timerStep_eq
    exact hdt
  · have hticks : ({ s with st := s.V x } : State).TicksEveryCycle := ⟨hdiv, htick⟩
    obtain ⟨-, -, hst⟩ := hticks.timerStep_eq
    exact ⟨hst, by rw [soundActive_iff, hst]; exact Nat.sub_pos_iff_lt⟩

/-! The timers along completed cycles -/

/-- A cycle, with nothing queued, that runs the instruction `i` to completion (R113). -/
def State.Completes (s : State) (i : Instr) (t : State) : Prop :=
  s.Running ∧ s.Fetchable ∧ s.host = [] ∧ decode s.wordAtPc = .ok i ∧ step s = .next t ∧ t.fault.kind = .none

/-- A completed cycle is the handler and the timer step. -/
theorem State.Completes.exists_exec {s t : State} {i : Instr} (h : s.Completes i t) :
    ∃ u, exec i (s.enterHandler (Config.randomByte s.rndIndex)) = .next u ∧ t = u.timerStep := by
  obtain ⟨hrun, hfetch, hhost, hd, hstep, hok⟩ := h
  obtain ⟨u, hexec⟩ := exists_exec_eq_next i (s.enterHandler (Config.randomByte s.rndIndex))
  rw [step_nil hhost, cycle_of_exec hrun hfetch hd hexec] at hstep
  obtain rfl := Host.Outcome.next.inj hstep
  by_cases hu : u.fault.kind = .none
  · exact ⟨u, hexec, if_pos hu⟩
  · rw [if_neg hu] at hok
    exact absurd hok hu

/-- A completed cycle that does not write a timer counts it down by 1 (R219). -/
theorem State.Completes.counts_down {s t : State} {i : Instr} (h : s.Completes i t) (hticks : s.TicksEveryCycle) :
    t.TicksEveryCycle ∧ ((∀ x, i ≠ .setDelay x) → t.dt.toNat = s.dt.toNat - 1) ∧
      ((∀ x, i ≠ .setSound x) → t.st.toNat = s.st.toNat - 1) := by
  obtain ⟨u, hexec, rfl⟩ := h.exists_exec
  obtain ⟨-, -, -, hdt, hst, -, -, -, htick, hcfg, -⟩ := specialRegistersChangeOnlyWhereNamed i _ u hexec
  have huticks : u.TicksEveryCycle := hticks.congr hcfg htick
  obtain ⟨-, hdt', hst'⟩ := huticks.timerStep_eq
  refine ⟨huticks.timerStep, fun hi => ?_, fun hi => ?_⟩
  · rw [hdt', hdt hi, enterHandler_dt]
  · rw [hst', hst hi, enterHandler_st]

theorem ticksEveryCycle_along {n : Nat} {run : Nat → State} {word : Nat → Instr} (h0 : (run 0).TicksEveryCycle)
    (hrun : ∀ k < n, (run k).Completes (word k) (run (k + 1))) : ∀ k ≤ n, (run k).TicksEveryCycle := by
  intro k hk
  induction k with
  | zero => exact h0
  | succ k ih =>
    obtain ⟨hticks, -⟩ := (hrun k hk).counts_down (ih (Nat.le_of_lt hk))
    exact hticks

/-- A count that drops by 1 at each of `n` moves, stopping at 0. -/
theorem eq_sub_of_drops {n : Nat} {count : Nat → Nat} (h : ∀ k < n, count (k + 1) = count k - 1) :
    count n = count 0 - n := by
  induction n with
  | zero => rfl
  | succ n ih =>
    rw [h n (Nat.lt_succ_self n), ih fun k hk => h k (Nat.lt_succ_of_lt hk), Nat.sub_sub]

/-- Settles O53: along the cycles every timer step counts, and no handler but the excepted one writes the timer. -/
theorem timersReachZeroAfterTheirCount : Obligations.TimersReachZeroAfterTheirCount := by
  intro n run word hdiv htick hrun
  have hticks := ticksEveryCycle_along ⟨hdiv, htick⟩ hrun
  refine ⟨fun hword => eq_sub_of_drops (count := fun k => (run k).dt.toNat) fun k hk => ?_,
    fun hword => eq_sub_of_drops (count := fun k => (run k).st.toNat) fun k hk => ?_⟩
  · obtain ⟨-, hdt, -⟩ := State.Completes.counts_down (hrun k hk) (hticks k (Nat.le_of_lt hk))
    exact hdt (hword k hk)
  · obtain ⟨-, -, hst⟩ := State.Completes.counts_down (hrun k hk) (hticks k (Nat.le_of_lt hk))
    exact hst (hword k hk)

/-! The key tests (R210, R211, R217) -/

section
variable {c : Config} {b : Byte}

/-- The values that name a key: those under 16, and under `mask` the low nibble of the others. -/
theorem keyLookup_eq_key {k : Key}
    (h : k.val = b.toNat ∨ (16 ≤ b.toNat ∧ c.keyIndex = .mask ∧ k.val = b.toNat % 16)) :
    keyLookup c b = .key k := by
  rcases h with hk | ⟨hbig, hpolicy, hk⟩
  · have hlt : b.toNat < 16 := hk ▸ k.isLt
    rw [keyLookup, dif_pos hlt]
    exact congrArg KeyLookup.key (Fin.ext hk.symm)
  · rw [keyLookup, dif_neg (Nat.not_lt.mpr hbig), hpolicy]
    exact congrArg KeyLookup.key (Fin.ext hk.symm)

theorem keyLookup_eq_absent (hbig : 16 ≤ b.toNat) (hpolicy : c.keyIndex = .notPressed) : keyLookup c b = .absent := by
  rw [keyLookup, dif_neg (Nat.not_lt.mpr hbig), hpolicy]

theorem keyLookup_eq_outOfRange (hbig : 16 ≤ b.toNat) (hpolicy : c.keyIndex = .fault) :
    keyLookup c b = .outOfRange := by
  rw [keyLookup, dif_neg (Nat.not_lt.mpr hbig), hpolicy]

end

section
variable {x : Reg} {s : State} (wanted : Bool)

theorem keySkip_of_key {k : Key} (h : keyLookup s.cfg (s.V x) = .key k) :
    keySkip wanted x s = .next { s with pc := if s.isPressed k = wanted then s.pc + 2 else s.pc } := by
  rw [keySkip, h]
  exact congrArg Host.Outcome.next (skipIf_eq s beq_iff_eq)

theorem keySkip_of_absent (h : keyLookup s.cfg (s.V x) = .absent) :
    keySkip wanted x s = .next (s.skipIf (false == wanted)) := by
  rw [keySkip, h]

theorem keySkip_of_outOfRange (h : keyLookup s.cfg (s.V x) = .outOfRange) :
    keySkip wanted x s = raise .keyIndexRange (BitVec.ofNat 16 (s.V x).toNat) s := by
  rw [keySkip, h, BitVec.ofNat_toNat]
  rfl

end

/-- Settles O48: the two skips are one test with another state wanted, by what the value of V[x] names. -/
theorem keySkipsTestTheKey : Obligations.KeySkipsTestTheKey := by
  intro x s
  refine ⟨fun k hk => ?_, fun hbig hpolicy => ?_, fun hbig hpolicy i hi => ?_⟩
  · exact ⟨keySkip_of_key true (keyLookup_eq_key hk), keySkip_of_key false (keyLookup_eq_key hk)⟩
  · have habsent := keyLookup_eq_absent hbig hpolicy
    exact ⟨keySkip_of_absent true habsent, keySkip_of_absent false habsent⟩
  · have hrange := keyLookup_eq_outOfRange hbig hpolicy
    rcases hi with rfl | rfl
    · exact keySkip_of_outOfRange true hrange
    · exact keySkip_of_outOfRange false hrange

/-! The key wait -/

theorem run_succ {s t : State} (h : step s = .next t) (n : Nat) :
    Host.Core.run Sys2Proof.core (n + 1) s = Host.Core.run Sys2Proof.core n t := by
  have hcore : Sys2Proof.core.step s = .next t := h
  simp only [Host.Core.run, hcore]

/-- Settles O51: each step is an idle cycle, so the run is one step shorter from the same state. -/
theorem waitingCoreStaysPut : Obligations.WaitingCoreStaysPut := by
  intro n s hwait hhost
  have hidle : step s = .next s := (step_nil hhost).trans (cycle_idle (.inr hwait))
  induction n with
  | zero => rfl
  | succ n ih => exact (run_succ hidle n).trans ih

/-- DELIVER_KEY to a waiting core that is not halted puts the key into V[wait_target] (R104). -/
theorem toNat_V_deliverKey {s : State} {x : Reg} (hwait : s.waiting = true) (hok : s.fault.kind = .none)
    (hx : s.waitTarget = x) (k : Key) : ((s.deliverKey k).V x).toNat = k.val := by
  subst hx
  rw [deliverKey_of_waiting hwait hok]
  exact (congrArg BitVec.toNat (V_setV_same s _ _)).trans (toNat_keyByte k)

/-- Settles O50: the timer step and KEY_UPDATE keep the wait, a waiting core's cycle is idle, and DELIVER_KEY finds
`wait_target` = x. -/
theorem waitKeyHoldsUntilAKeyIsDelivered : Obligations.WaitKeyHoldsUntilAKeyIsDelivered := by
  intro x s hok
  have hwait := timerStep_waiting { s with waiting := true, waitTarget := x }
  have hok' : ({ s with waiting := true, waitTarget := x } : State).timerStep.fault.kind = .none :=
    (congrArg FaultReg.kind (timerStep_fault _)).trans hok
  refine ⟨decode_of_encodeWith 0 (patternXkk_eq 0xF x 0x0A), _, rfl, rfl, fun rnd => cycle_idle (.inr hwait),
    fun k p => hwait, fun k => ⟨toNat_V_deliverKey hwait hok' (timerStep_waitTarget _) k, ?_, ?_⟩⟩
  · rw [deliverKey_of_waiting hwait hok']
  · rw [deliverKey_pc, timerStep_pc]

end Sys2Proof.Machine

/-! Faults, the halt and the key wait (spec/60_exceptions.md): a fault is recorded over the state before its cycle, and
what a step can do to a core whose cycles do nothing. -/

namespace Sys2Proof.Machine

/-- Settles O12: every handler answers a next state. -/
theorem everyInstructionAnswersANextState : Obligations.EveryInstructionAnswersANextState :=
  exists_exec_eq_next

/-! Precise faults (R231, R232) -/

/-- A handler leaves the fault register, or records the address its word was fetched from. -/
theorem effect_fault_eq_or_fpc {i : Instr} {s t : State} (he : Effect s i t) :
    t.fault = s.fault ∨ t.fault.fpc = s.pc - 2 := by
  cases he with
  | fault kind info => exact .inr rfl
  | skip cond => exact .inl (skipIf_fault s cond)
  | _ => exact .inl rfl

/-- The fault a handler of a running core raises names the PC at the start of the cycle. -/
theorem fpc_of_exec_enterHandler {i : Instr} {rnd : Byte} {s u : State} (hok : s.fault.kind = .none)
    (hexec : exec i (s.enterHandler rnd) = .next u) (hfault : u.fault.kind ≠ .none) : u.fault.fpc = s.pc := by
  rcases effect_fault_eq_or_fpc (exec_effect hexec) with hkept | hfpc
  · exact absurd ((congrArg FaultReg.kind hkept).trans hok) hfault
  · exact hfpc.trans (BitVec.add_sub_cancel s.pc 2)

/-- Settles O11: a fault of the fetch or the decoder is taken at PC, and a handler's is recorded over the state before
the cycle. -/
theorem faultsArePrecise : Obligations.FaultsArePrecise := by
  intro s t rnd hrun h hfault
  refine ⟨?_, if_pos hfault⟩
  rcases cycle_cases h with ⟨-, rfl⟩ | ⟨-, kind, info, -, rfl⟩ | ⟨-, -, raw, -, rfl⟩ | ⟨-, -, i, u, -, hexec, hfin⟩
  · exact absurd hrun.1 hfault
  · exact takeFault_eq s kind info
  · exact takeFault_eq s .decodeFailure raw
  · rcases hfin with ⟨-, rfl⟩ | ⟨hok, rfl⟩
    · rw [← fpc_of_exec_enterHandler hrun.1 hexec hfault]
    · exact absurd ((congrArg FaultReg.kind (timerStep_fault u)).trans hok) hfault

/-! The halt and the key wait (R233, R243) -/

/-- A step of a halted or a waiting core keeps the halt and the wait, delivers a key, which keeps the halt, or is a
RESET. -/
theorem step_idle_cases {s t : State} (hidle : s.fault.kind ≠ .none ∨ s.waiting = true) (h : step s = .next t) :
    (t.fault = s.fault ∧ t.waiting = s.waiting) ∨
    (t.fault = s.fault ∧ ∃ k rest, s.host = .deliverKey k :: rest) ∨
    ∃ image rest, s.host = .reset image :: rest := by
  rcases step_cases h with ⟨rnd, s0, rfl | ⟨rest, rfl⟩, hc⟩ | ⟨e, rest, hhost, hevent⟩
  · obtain rfl := Host.Outcome.next.inj ((cycle_idle hidle).symm.trans hc)
    exact .inl ⟨rfl, rfl⟩
  · obtain rfl := Host.Outcome.next.inj ((cycle_idle (s := { s with host := rest }) hidle).symm.trans hc)
    exact .inl ⟨rfl, rfl⟩
  · rcases hevent with ⟨image, rfl, -, -⟩ | ⟨k, p, -, rfl⟩ | ⟨k, rfl, rfl⟩ | ⟨-, rfl⟩
    · exact .inr (.inr ⟨image, rest, hhost⟩)
    · exact .inl ⟨rfl, rfl⟩
    · exact .inr (.inl ⟨deliverKey_fault _ k, k, rest, hhost⟩)
    · exact .inl ⟨rfl, rfl⟩

/-- Settles O58: of the steps of an idle core DELIVER_KEY and RESET alone end a wait, and RESET alone a halt. -/
theorem onlyTheHostEndsAHaltOrAWait : Obligations.OnlyTheHostEndsAHaltOrAWait := by
  refine fun s t h => ⟨fun hfault hchanged => ?_, fun hwait hended => ?_⟩
  · rcases step_idle_cases (.inl hfault) h with ⟨hkept, -⟩ | ⟨hkept, -⟩ | hreset
    · exact absurd hkept hchanged
    · exact absurd hkept hchanged
    · exact hreset
  · rcases step_idle_cases (.inr hwait) h with ⟨-, hkept⟩ | ⟨-, hkey⟩ | hreset
    · exact absurd (hkept.trans hwait) (by simp [hended])
    · exact .inl hkey
    · exact .inr hreset

end Sys2Proof.Machine

/-! What a RESET with an image that fits leaves (spec/70_reset_and_hazards.md R260): the reset state of the
configuration, with the image loaded over its memory. -/

namespace Sys2Proof.Machine

/-- The reset PC fits the program counter: `PROGRAM_START` lies in memory (R8). -/
theorem toNat_pc_resetOf {c : Config} (hwf : c.wf = true) : (State.resetOf c).pc.toNat = c.programStart := by
  refine (BitVec.toNat_ofNat _ _).trans (Nat.mod_eq_of_lt ?_)
  simp only [Config.wf, Bool.and_eq_true, decide_eq_true_eq] at hwf
  omega

theorem stackAt_resetOf (c : Config) (k : Nat) : (State.resetOf c).stackAt k = 0 := by
  simp [State.stackAt, State.resetOf]

theorem isPressed_resetOf (c : Config) (k : Key) : (State.resetOf c).isPressed k = false := Vector.getElem_replicate _

/-- Memory after a RESET: the image from `PROGRAM_START` up, and around it what an empty image leaves (R40). -/
theorem readByte_resetWith (s : State) (image : List Byte) (a : Nat) :
    (s.resetWith image).readByte a =
      if s.cfg.programStart ≤ a ∧ a < s.cfg.programStart + image.length then image.getD (a - s.cfg.programStart) 0
      else resetByte s.cfg a :=
  read_writeBytes s.cfg image [] s.cfg.programStart rfl a

/-- A queued RESET is accepted where its image fits (spec/40_cycle.md R101). -/
theorem step_reset {s : State} {image : List Byte} {rest : List HostEvent} (hhost : s.host = .reset image :: rest)
    (hfit : s.cfg.programStart + image.length ≤ s.cfg.memSize) :
    step s = .next (({ s with host := rest } : State).resetWith image) :=
  (step_cons hhost).trans (if_pos (decide_eq_true hfit))

/-- Settles O56: the step answers `State.resetWith`, whose fields are those of `State.resetOf` but for memory, which
holds the image over the reset bytes. -/
theorem resetSetsEveryPieceOfState : Obligations.ResetSetsEveryPieceOfState := by
  intro s image rest hwf hhost hfit
  exact ⟨_, step_reset hhost hfit,
    V_resetOf s.cfg, rfl, toNat_pc_resetOf hwf, rfl,
    List.length_replicate, stackAt_resetOf s.cfg, rfl, rfl,
    sized_blank s.cfg, pixel_blank s.cfg, rfl,
    isPressed_resetOf s.cfg, rfl, rfl, rfl, rfl,
    rfl, rfl,
    readByte_resetWith _ image⟩

end Sys2Proof.Machine
